-- ==== Sys2Proof/Word.lean ====
section
/-! DEFINITION. The word types of the engine (spec 00_scope.md R1, 30_encoding.md R61). -/

namespace Sys2Proof

/-- A register, a memory byte, an immediate `kk`: 8 bits (R1). -/
abbrev Byte := BitVec 8

/-- An instruction word, `pc`, `I`, a stack slot: 16 bits (R1, R12, R13, R14). -/
abbrev Word := BitVec 16

/-- The 12-bit address field `nnn` of an instruction word (R61). -/
abbrev Addr := BitVec 12

/-- The number of a general register, `V0..VF` (R10). -/
abbrev Reg := Fin 16

end Sys2Proof
end

