-- ==== Sys2Proof/Config.lean ====
section
/-! DEFINITION. The OPEN parameters of the engine (spec 00_scope.md R2 to R5) and the free value of RND (R7). The
parameters are data a state carries (log entry 1), so that what is proved holds for every legal choice. Their default
values stand in Machine/Defaults.lean. -/

namespace Sys2Proof

/-- The OPEN parameters (00_scope.md section 4). -/
structure Config where
  /-- `LOAD_ADDRESS` (R2): where the program image goes and where `pc` starts. -/
  loadAddress : Nat
  /-- `FONT_BASE` (R3): where reset puts the font. -/
  fontBase : Nat
  /-- `FONT_TABLE` (R4, R22): glyph `d` at offsets `5*d .. 5*d + 4`. -/
  fontTable : List Byte
  /-- `LD_VX_ST_LOW` (R5): the low byte that selects LD Vx, ST, or absent. -/
  ldVxStLow : Option Byte
deriving DecidableEq, Repr

namespace Config

/-- The low bytes of primary opcode F that select rows 26 to 34 of R66; `LD_VX_ST_LOW` is none of them (R5). -/
def usedLowBytes : List Byte :=
  [0x07#8, 0x0A#8, 0x15#8, 0x18#8, 0x1E#8, 0x29#8, 0x33#8, 0x55#8, 0x65#8]

/-- The constraints the spec puts on the parameters: R2 (even, after the font, two bytes inside memory), R3, R4
(80 bytes), R5 (not a byte already in use). -/
def wf (c : Config) : Bool :=
  c.loadAddress % 2 == 0
    && decide (c.fontBase + 80 ≤ c.loadAddress)
    && decide (c.loadAddress + 2 ≤ 4096)
    && c.fontTable.length == 80
    && (match c.ldVxStLow with
        | none => true
        | some b => !usedLowBytes.contains b)

/-- `random_byte` (R7, R132): the byte RND draws at its `n`-th execution. A free value: nothing constrains it, two
draws need not agree. Safe: a claim must hold whatever it is (log entry 2). -/
opaque randomByte : Nat → Byte

end Config

end Sys2Proof
end

