-- ==== Sys2Proof/Machine/Defaults.lean ====
section
/-! DEFINITION. The spec's default values of the OPEN parameters (00_scope.md R2 to R5, 10_state.md R22). -/

namespace Sys2Proof

namespace Config

/-- The font of R22, which the spec supplies from general knowledge (its D3). -/
def conventionalFont : List Byte :=
  [0xF0#8, 0x90#8, 0x90#8, 0x90#8, 0xF0#8]
    ++ [0x20#8, 0x60#8, 0x20#8, 0x20#8, 0x70#8]
    ++ [0xF0#8, 0x10#8, 0xF0#8, 0x80#8, 0xF0#8]
    ++ [0xF0#8, 0x10#8, 0xF0#8, 0x10#8, 0xF0#8]
    ++ [0x90#8, 0x90#8, 0xF0#8, 0x10#8, 0x10#8]
    ++ [0xF0#8, 0x80#8, 0xF0#8, 0x10#8, 0xF0#8]
    ++ [0xF0#8, 0x80#8, 0xF0#8, 0x90#8, 0xF0#8]
    ++ [0xF0#8, 0x10#8, 0x20#8, 0x40#8, 0x40#8]
    ++ [0xF0#8, 0x90#8, 0xF0#8, 0x90#8, 0xF0#8]
    ++ [0xF0#8, 0x90#8, 0xF0#8, 0x10#8, 0xF0#8]
    ++ [0xF0#8, 0x90#8, 0xF0#8, 0x90#8, 0x90#8]
    ++ [0xE0#8, 0x90#8, 0xE0#8, 0x90#8, 0xE0#8]
    ++ [0xF0#8, 0x80#8, 0x80#8, 0x80#8, 0xF0#8]
    ++ [0xE0#8, 0x90#8, 0x90#8, 0x90#8, 0xE0#8]
    ++ [0xF0#8, 0x80#8, 0xF0#8, 0x80#8, 0xF0#8]
    ++ [0xF0#8, 0x80#8, 0xF0#8, 0x80#8, 0x80#8]

/-- The spec's default of every OPEN parameter (R2, R3, R5, R22). DESIGN CHOICE, unsafe where a claim rests on one of
the numbers: the spec's source gives none (log entry 1). -/
def default : Config :=
  { loadAddress := 0x200
    fontBase := 0x050
    fontTable := conventionalFont
    ldVxStLow := none }

end Config

end Sys2Proof
end

