-- ==== Sys2Proof/Syntax.lean ====
section
/-! DEFINITION. The 35 instructions of spec 30_encoding.md R66, one constructor for each row of the opcode table, in
the table's order. Operands are the fields of R61: registers `x`, `y`, a count `n`, an immediate `kk`, an address `nnn`. -/

namespace Sys2Proof

/-- The complete instruction list (R66). -/
inductive Instr where
  /-- Row 1, CLS (R100). -/
  | cls
  /-- Row 2, RET (R101). -/
  | ret
  /-- Row 3, JP nnn (R102). -/
  | jp (nnn : Addr)
  /-- Row 4, CALL nnn (R103). -/
  | call (nnn : Addr)
  /-- Row 5, SE Vx, kk (R105). -/
  | seImm (x : Reg) (kk : Byte)
  /-- Row 6, SNE Vx, kk (R106). -/
  | sneImm (x : Reg) (kk : Byte)
  /-- Row 7, SE Vx, Vy (R107). -/
  | seReg (x y : Reg)
  /-- Row 8, LD Vx, kk (R120). -/
  | ldImm (x : Reg) (kk : Byte)
  /-- Row 9, ADD Vx, kk (R121). -/
  | addImm (x : Reg) (kk : Byte)
  /-- Row 10, LD Vx, Vy (R122). -/
  | ldReg (x y : Reg)
  /-- Row 11, OR Vx, Vy (R123). -/
  | orReg (x y : Reg)
  /-- Row 12, AND Vx, Vy (R124). -/
  | andReg (x y : Reg)
  /-- Row 13, XOR Vx, Vy (R125). -/
  | xorReg (x y : Reg)
  /-- Row 14, ADD Vx, Vy (R126). -/
  | addReg (x y : Reg)
  /-- Row 15, SUB Vx, Vy (R127). -/
  | sub (x y : Reg)
  /-- Row 16, SHR Vx (R128). The field `y` stands in the word and its value is ignored (log entry 8). -/
  | shr (x y : Reg)
  /-- Row 17, SUBN Vx, Vy (R129). -/
  | subn (x y : Reg)
  /-- Row 18, SHL Vx (R130). The field `y` stands in the word and its value is ignored (log entry 8). -/
  | shl (x y : Reg)
  /-- Row 19, SNE Vx, Vy (R108). -/
  | sneReg (x y : Reg)
  /-- Row 20, LD I, nnn (R131). -/
  | ldI (nnn : Addr)
  /-- Row 21, JP V0, nnn (R104). -/
  | jpV0 (nnn : Addr)
  /-- Row 22, RND Vx, kk (R132). -/
  | rnd (x : Reg) (kk : Byte)
  /-- Row 23, DRW Vx, Vy, n (R141). -/
  | drw (x y : Reg) (n : Fin 16)
  /-- Row 24, SKP Vx (R109). -/
  | skp (x : Reg)
  /-- Row 25, SKNP Vx (R110). -/
  | sknp (x : Reg)
  /-- Row 26, LD Vx, DT (R150). -/
  | ldVxDt (x : Reg)
  /-- Row 27, LD Vx, K (R152). -/
  | ldVxK (x : Reg)
  /-- Row 28, LD DT, Vx (R153). -/
  | ldDtVx (x : Reg)
  /-- Row 29, LD ST, Vx (R154). -/
  | ldStVx (x : Reg)
  /-- Row 30, ADD I, Vx (R155). -/
  | addI (x : Reg)
  /-- Row 31, LD F, Vx (R156). -/
  | ldF (x : Reg)
  /-- Row 32, LD B, Vx (R157). -/
  | ldB (x : Reg)
  /-- Row 33, LD [I], Vx (R158). -/
  | storeRegs (x : Reg)
  /-- Row 34, LD Vx, [I] (R159). -/
  | loadRegs (x : Reg)
  /-- Row 35, LD Vx, ST (R151). Its word exists only when `LD_VX_ST_LOW` is present (R5). -/
  | ldVxSt (x : Reg)
deriving DecidableEq, Repr

end Sys2Proof
end

