-- ==== Sys2Proof/WellFormed.lean ====
section
/-! DEFINITION. Which instructions have a word (spec 30_encoding.md R66). The field types of `Instr` leave one check:
LD Vx, ST has a word only when `LD_VX_ST_LOW` is present. The checks on the parameters are `Config.wf`. -/

namespace Sys2Proof

/-- The instruction can be written as a word on an engine with these parameters (R66, R5). -/
def Instr.wf (c : Config) : Instr → Bool
  | .cls | .ret | .jp _ | .call _ | .seImm _ _ | .sneImm _ _ | .seReg _ _ | .ldImm _ _ | .addImm _ _ => true
  | .ldReg _ _ | .orReg _ _ | .andReg _ _ | .xorReg _ _ | .addReg _ _ | .sub _ _ | .shr _ _ => true
  | .subn _ _ | .shl _ _ | .sneReg _ _ | .ldI _ | .jpV0 _ | .rnd _ _ | .drw _ _ _ => true
  | .skp _ | .sknp _ | .ldVxDt _ | .ldVxK _ | .ldDtVx _ | .ldStVx _ | .addI _ | .ldF _ => true
  | .ldB _ | .storeRegs _ | .loadRegs _ => true
  | .ldVxSt _ => c.ldVxStLow.isSome

end Sys2Proof
end

