-- ==== Sys2Proof/Decode.lean ====
section
/-! DEFINITION. The decoder (spec 30_encoding.md R60 to R68), total on any bytes and rejecting by name, and after it
the encoder, the opcode table of R66, and the host's view of one table word. -/

namespace Sys2Proof

/-- Why bytes are no instruction: they are too few, or the word stands in a row of the table of illegal words (R67). -/
inductive DecodeError where
  /-- Fewer than the two bytes of an instruction (R60). -/
  | truncated
  /-- `0nnn` with `nnn` neither `0E0` nor `0EE`. -/
  | illegalGroup0
  /-- `5xyn` with `n` not 0. -/
  | illegalGroup5
  /-- `8xyn` with no such ALU operation. -/
  | illegalGroup8
  /-- `9xyn` with `n` not 0. -/
  | illegalGroup9
  /-- `Exkk` with `kk` neither `9E` nor `A1`. -/
  | illegalGroupE
  /-- `Fxkk` with `kk` no selector of group F. -/
  | illegalGroupF
deriving DecidableEq, Repr

/-! ### The fields of a word (R61) -/

/-- Primary opcode, bits 15..12. -/
def fieldOp (w : Word) : BitVec 4 := w.extractLsb' 12 4

/-- First register, bits 11..8. -/
def fieldX (w : Word) : Reg := (w.extractLsb' 8 4).toFin

/-- Second register, bits 7..4. -/
def fieldY (w : Word) : Reg := (w.extractLsb' 4 4).toFin

/-- Trailing nibble, bits 3..0. -/
def fieldN (w : Word) : BitVec 4 := w.extractLsb' 0 4

/-- Immediate, bits 7..0. -/
def fieldKk (w : Word) : Byte := w.extractLsb' 0 8

/-- Address, bits 11..0. -/
def fieldNnn (w : Word) : Addr := w.extractLsb' 0 12

/-- The instruction word of two bytes in memory order: the first is the more significant (R45, R60). -/
def wordOfBytes (hi lo : Byte) : Word := hi ++ lo

/-- The two bytes of a word in memory order (R45, R60). -/
def bytesOfWord (w : Word) : List Byte := [w.extractLsb' 8 8, w.extractLsb' 0 8]

/-! ### Dispatch (R65) -/

/-- Group 0: the whole low 12 bits select. -/
def decodeGroup0 (nnn : Addr) : Except DecodeError Instr :=
  if nnn = 0x0E0#12 then .ok .cls
  else if nnn = 0x0EE#12 then .ok .ret
  else .error .illegalGroup0

/-- Group 8: the trailing nibble selects. -/
def decodeGroup8 (x y : Reg) (n : BitVec 4) : Except DecodeError Instr :=
  if n = 0x0#4 then .ok (.ldReg x y)
  else if n = 0x1#4 then .ok (.orReg x y)
  else if n = 0x2#4 then .ok (.andReg x y)
  else if n = 0x3#4 then .ok (.xorReg x y)
  else if n = 0x4#4 then .ok (.addReg x y)
  else if n = 0x5#4 then .ok (.sub x y)
  else if n = 0x6#4 then .ok (.shr x y)
  else if n = 0x7#4 then .ok (.subn x y)
  else if n = 0xE#4 then .ok (.shl x y)
  else .error .illegalGroup8

/-- Group E: the low byte selects. -/
def decodeGroupE (x : Reg) (kk : Byte) : Except DecodeError Instr :=
  if kk = 0x9E#8 then .ok (.skp x)
  else if kk = 0xA1#8 then .ok (.sknp x)
  else .error .illegalGroupE

/-- Group F: the low byte selects; LD Vx, ST last, where `LD_VX_ST_LOW` is present (R5, R151,
log entry 9). -/
def decodeGroupF (c : Config) (x : Reg) (kk : Byte) : Except DecodeError Instr :=
  if kk = 0x07#8 then .ok (.ldVxDt x)
  else if kk = 0x0A#8 then .ok (.ldVxK x)
  else if kk = 0x15#8 then .ok (.ldDtVx x)
  else if kk = 0x18#8 then .ok (.ldStVx x)
  else if kk = 0x1E#8 then .ok (.addI x)
  else if kk = 0x29#8 then .ok (.ldF x)
  else if kk = 0x33#8 then .ok (.ldB x)
  else if kk = 0x55#8 then .ok (.storeRegs x)
  else if kk = 0x65#8 then .ok (.loadRegs x)
  else if c.ldVxStLow = some kk then .ok (.ldVxSt x)
  else .error .illegalGroupF

/-- The decoder on the fields of a word. The primary opcode has sixteen values, all in use; the last arm is `0xF`. -/
def decodeFields (c : Config) (op : BitVec 4) (x y : Reg) (n : BitVec 4) (kk : Byte) (nnn : Addr) :
    Except DecodeError Instr :=
  match op with
  | 0x0#4 => decodeGroup0 nnn
  | 0x1#4 => .ok (.jp nnn)
  | 0x2#4 => .ok (.call nnn)
  | 0x3#4 => .ok (.seImm x kk)
  | 0x4#4 => .ok (.sneImm x kk)
  | 0x5#4 => if n = 0x0#4 then .ok (.seReg x y) else .error .illegalGroup5
  | 0x6#4 => .ok (.ldImm x kk)
  | 0x7#4 => .ok (.addImm x kk)
  | 0x8#4 => decodeGroup8 x y n
  | 0x9#4 => if n = 0x0#4 then .ok (.sneReg x y) else .error .illegalGroup9
  | 0xA#4 => .ok (.ldI nnn)
  | 0xB#4 => .ok (.jpV0 nnn)
  | 0xC#4 => .ok (.rnd x kk)
  | 0xD#4 => .ok (.drw x y n.toFin)
  | 0xE#4 => decodeGroupE x kk
  | _ => decodeGroupF c x kk

/-- The decoder on words (R63, R65, R66, R67). -/
def decodeWord (c : Config) (w : Word) : Except DecodeError Instr :=
  decodeFields c (fieldOp w) (fieldX w) (fieldY w) (fieldN w) (fieldKk w) (fieldNnn w)

/-- The decoder on bytes in memory order: one instruction and the bytes after it (R60). -/
def decodeBytes (c : Config) : List Byte → Except DecodeError (Instr × List Byte)
  | hi :: lo :: rest => (decodeWord c (wordOfBytes hi lo)).map (fun i => (i, rest))
  | _ => .error .truncated

/-! ### The encoder (R61, R66) -/

/-- Pattern `onnn`. -/
def encodeNnn (op : BitVec 4) (nnn : Addr) : Word := op ++ nnn

/-- Pattern `oxkk`. -/
def encodeXKk (op : BitVec 4) (x : Reg) (kk : Byte) : Word := encodeNnn op (BitVec.ofFin (w := 4) x ++ kk)

/-- Pattern `oxyn`. -/
def encodeXYN (op : BitVec 4) (x y : Reg) (n : BitVec 4) : Word :=
  encodeXKk op x (BitVec.ofFin (w := 4) y ++ n)

/-- The word of an instruction (the column "pattern" of R66), or none for LD Vx, ST without `LD_VX_ST_LOW`. -/
def encodeWord (c : Config) : Instr → Option Word
  | .cls => some 0x00E0#16
  | .ret => some 0x00EE#16
  | .jp nnn => some (encodeNnn 0x1#4 nnn)
  | .call nnn => some (encodeNnn 0x2#4 nnn)
  | .seImm x kk => some (encodeXKk 0x3#4 x kk)
  | .sneImm x kk => some (encodeXKk 0x4#4 x kk)
  | .seReg x y => some (encodeXYN 0x5#4 x y 0x0#4)
  | .ldImm x kk => some (encodeXKk 0x6#4 x kk)
  | .addImm x kk => some (encodeXKk 0x7#4 x kk)
  | .ldReg x y => some (encodeXYN 0x8#4 x y 0x0#4)
  | .orReg x y => some (encodeXYN 0x8#4 x y 0x1#4)
  | .andReg x y => some (encodeXYN 0x8#4 x y 0x2#4)
  | .xorReg x y => some (encodeXYN 0x8#4 x y 0x3#4)
  | .addReg x y => some (encodeXYN 0x8#4 x y 0x4#4)
  | .sub x y => some (encodeXYN 0x8#4 x y 0x5#4)
  | .shr x y => some (encodeXYN 0x8#4 x y 0x6#4)
  | .subn x y => some (encodeXYN 0x8#4 x y 0x7#4)
  | .shl x y => some (encodeXYN 0x8#4 x y 0xE#4)
  | .sneReg x y => some (encodeXYN 0x9#4 x y 0x0#4)
  | .ldI nnn => some (encodeNnn 0xA#4 nnn)
  | .jpV0 nnn => some (encodeNnn 0xB#4 nnn)
  | .rnd x kk => some (encodeXKk 0xC#4 x kk)
  | .drw x y n => some (encodeXYN 0xD#4 x y (BitVec.ofFin (w := 4) n))
  | .skp x => some (encodeXKk 0xE#4 x 0x9E#8)
  | .sknp x => some (encodeXKk 0xE#4 x 0xA1#8)
  | .ldVxDt x => some (encodeXKk 0xF#4 x 0x07#8)
  | .ldVxK x => some (encodeXKk 0xF#4 x 0x0A#8)
  | .ldDtVx x => some (encodeXKk 0xF#4 x 0x15#8)
  | .ldStVx x => some (encodeXKk 0xF#4 x 0x18#8)
  | .addI x => some (encodeXKk 0xF#4 x 0x1E#8)
  | .ldF x => some (encodeXKk 0xF#4 x 0x29#8)
  | .ldB x => some (encodeXKk 0xF#4 x 0x33#8)
  | .storeRegs x => some (encodeXKk 0xF#4 x 0x55#8)
  | .loadRegs x => some (encodeXKk 0xF#4 x 0x65#8)
  | .ldVxSt x => c.ldVxStLow.map (encodeXKk 0xF#4 x)

/-- The words of an instruction, one for each instruction (R60). -/
def encode (c : Config) (i : Instr) : Option (List Word) := (encodeWord c i).map (fun w => [w])

/-! ### The opcode table (R66), read as data -/

/-- A row of R66: a word `w` is the instruction of the row iff `w &&& mask = pattern`. -/
structure OpcodeRow where
  /-- The row's number in R66. -/
  number : Nat
  /-- The column "match". -/
  pattern : Word
  /-- The column "mask". -/
  mask : Word
deriving DecidableEq, Repr

/-- Rows 1 to 34 of R66. -/
def opcodeTable : List OpcodeRow :=
  [⟨1, 0x00E0#16, 0xFFFF#16⟩, ⟨2, 0x00EE#16, 0xFFFF#16⟩, ⟨3, 0x1000#16, 0xF000#16⟩, ⟨4, 0x2000#16, 0xF000#16⟩,
    ⟨5, 0x3000#16, 0xF000#16⟩, ⟨6, 0x4000#16, 0xF000#16⟩, ⟨7, 0x5000#16, 0xF00F#16⟩, ⟨8, 0x6000#16, 0xF000#16⟩,
    ⟨9, 0x7000#16, 0xF000#16⟩]
    ++ [⟨10, 0x8000#16, 0xF00F#16⟩, ⟨11, 0x8001#16, 0xF00F#16⟩, ⟨12, 0x8002#16, 0xF00F#16⟩,
      ⟨13, 0x8003#16, 0xF00F#16⟩, ⟨14, 0x8004#16, 0xF00F#16⟩, ⟨15, 0x8005#16, 0xF00F#16⟩,
      ⟨16, 0x8006#16, 0xF00F#16⟩, ⟨17, 0x8007#16, 0xF00F#16⟩, ⟨18, 0x800E#16, 0xF00F#16⟩,
      ⟨19, 0x9000#16, 0xF00F#16⟩]
    ++ [⟨20, 0xA000#16, 0xF000#16⟩, ⟨21, 0xB000#16, 0xF000#16⟩, ⟨22, 0xC000#16, 0xF000#16⟩,
      ⟨23, 0xD000#16, 0xF000#16⟩, ⟨24, 0xE09E#16, 0xF0FF#16⟩, ⟨25, 0xE0A1#16, 0xF0FF#16⟩]
    ++ [⟨26, 0xF007#16, 0xF0FF#16⟩, ⟨27, 0xF00A#16, 0xF0FF#16⟩, ⟨28, 0xF015#16, 0xF0FF#16⟩,
      ⟨29, 0xF018#16, 0xF0FF#16⟩, ⟨30, 0xF01E#16, 0xF0FF#16⟩, ⟨31, 0xF029#16, 0xF0FF#16⟩,
      ⟨32, 0xF033#16, 0xF0FF#16⟩, ⟨33, 0xF055#16, 0xF0FF#16⟩, ⟨34, 0xF065#16, 0xF0FF#16⟩]

/-- All rows of R66 on an engine with these parameters: row 35 only when `LD_VX_ST_LOW` is present (R5). -/
def opcodeRows (c : Config) : List OpcodeRow :=
  opcodeTable ++ (c.ldVxStLow.toList.map (fun b => ⟨35, 0xF0#8 ++ b, 0xF0FF#16⟩))

/-- The row of R66 an instruction stands in. -/
def Instr.row : Instr → Nat
  | .cls => 1 | .ret => 2 | .jp _ => 3 | .call _ => 4 | .seImm _ _ => 5 | .sneImm _ _ => 6 | .seReg _ _ => 7
  | .ldImm _ _ => 8 | .addImm _ _ => 9 | .ldReg _ _ => 10 | .orReg _ _ => 11 | .andReg _ _ => 12
  | .xorReg _ _ => 13 | .addReg _ _ => 14 | .sub _ _ => 15 | .shr _ _ => 16 | .subn _ _ => 17 | .shl _ _ => 18
  | .sneReg _ _ => 19 | .ldI _ => 20 | .jpV0 _ => 21 | .rnd _ _ => 22 | .drw _ _ _ => 23 | .skp _ => 24
  | .sknp _ => 25 | .ldVxDt _ => 26 | .ldVxK _ => 27 | .ldDtVx _ => 28 | .ldStVx _ => 29 | .addI _ => 30
  | .ldF _ => 31 | .ldB _ => 32 | .storeRegs _ => 33 | .loadRegs _ => 34 | .ldVxSt _ => 35

/-! ### The host's numbering of a table word -/

/-- The first two bytes, in memory order, of an instruction whose bits are `w` with all bits from `nbits` up 0. -/
def tableBytes (nbits w : Nat) : List Byte := bytesOfWord (BitVec.ofNat 16 (w % 2 ^ nbits))

/-- The instruction the decoder reads from the bytes of a table word, with the spec's default parameters
(log entries 1 and 11). -/
def decodeTableWord (nbits w : Nat) : Option Instr :=
  match decodeBytes Config.default (tableBytes nbits w) with
  | .ok (i, _) => some i
  | .error _ => none

end Sys2Proof
end

