-- ==== Sys2Proof/Machine/State.lean ====
section
/-! DEFINITION. The state of the engine (spec 10_state.md), the fault codes, the refusals, and reset (R23, R210). -/

namespace Sys2Proof.Machine

/-- The fault codes of spec 60_exceptions.md R170. Each is raised by the operation its line names, which TAKES the
fault: a next state whose `status` is `halted code` (R171). `step` never answers an outcome `fault`: the spec gives
every fault its entry. Safe: a halted engine runs nothing (log entry 3). -/
inductive Fault where
  /-- RET with `SP = 0` (R101, R173); raised by `popReturn`. Safe. -/
  | stackUnderflow
  /-- CALL with `SP = 16` (R103, R173); raised by `pushReturn`. Safe. -/
  | stackOverflow
  /-- A fetched word that is no instruction (R67, R174); raised by `fetchInstr`. Safe. -/
  | invalidInstruction
  /-- A new value of `I` above `0xFFF` (R155, R175); raised by `setIndex`. Safe. -/
  | invalidMemoryAddress
  /-- A data access above `0xFFF` (R48, R176); raised by `readBlock` and `writeBlock`. Safe. -/
  | accessOutOfRange
  /-- A fetch with `pc >= 0xFFF` (R44, R176); raised by `fetchWord`. Safe. -/
  | fetchOutOfRange
  /-- SKP or SKNP with `V[x] > 15` (R109, R110, R176); raised by `selectKey`. Safe. -/
  | keyIndexOutOfRange
deriving DecidableEq, Repr

/-- `STATUS` (R19). -/
inductive Status where
  | running
  | halted (code : Fault)
deriving DecidableEq, Repr

/-- What the model does not carry out. -/
inductive Refusal where
  /-- An instruction without a meaning yet, raised by `exec`'s arm for it. Safe. No arm raises it. -/
  | notModelled (mnemonic : String)
  /-- `load_program` of more bytes than there are from `LOAD_ADDRESS` to the end of memory (R211), raised by
  `loadProgram`. Safe: the spec says the load does not happen. -/
  | imageTooLong
  /-- `load_program` after a load or a step since the last reset (R211, U12), raised by `loadProgram`. Safe: the spec
  refuses it (log entry 5). -/
  | loadNotPermitted
deriving DecidableEq, Repr

/-- The bytes of `MEM` that differ from the reset content, by rising address (R20, log entry 7). -/
abbrev Memory := List Host.Cell

/-- The framebuffer: 32 rows, row 0 first, of 64 columns, column 0 first (R17). -/
abbrev Display := Vector (Vector Bool 64) 32

/-- The architectural state (R21), and the model's own fields `draws`, `cfg` and
`loadable`. -/
structure State where
  /-- `V[0..15]` (R10); `V[15]` is VF (R11). -/
  v : Vector Byte 16
  /-- `program_counter` (R12). -/
  pc : Word
  /-- `index_register`, `I` (R13). -/
  i : Word
  /-- `STACK[0..15]` (R14). -/
  stack : Vector Word 16
  /-- `stack_pointer`, the number of pushed return addresses, 0..16 (R14, log entry 6). -/
  sp : Fin 17
  /-- `delay_timer` (R15). -/
  dt : Byte
  /-- `sound_timer` (R15). -/
  st : Byte
  /-- `KEY[0..15]` (R16). -/
  key : Vector Bool 16
  /-- `PIX` (R17). -/
  pix : Display
  /-- `REDRAW` (R18). -/
  redraw : Bool
  /-- `STATUS` (R19). -/
  status : Status
  /-- `MEM[0..4095]` (R20). -/
  mem : Memory
  /-- The model's own: how many random bytes have been drawn (log entry 2). -/
  draws : Nat
  /-- The model's own: the OPEN parameters this engine was built with (log entry 1). -/
  cfg : Config
  /-- The model's own: no image has been loaded and no step taken since reset, so that a load is permitted (R211, R193,
  log entry 5). -/
  loadable : Bool
deriving DecidableEq, Repr

/-- The state after reset of an engine with the given parameters (R23, R210). -/
def State.resetWith (c : Config) : State :=
  { v := Vector.replicate 16 0#8
    pc := BitVec.ofNat 16 c.loadAddress
    i := 0#16
    stack := Vector.replicate 16 0#16
    sp := 0
    dt := 0#8
    st := 0#8
    key := Vector.replicate 16 false
    pix := Vector.replicate 32 (Vector.replicate 64 false)
    redraw := false
    status := .running
    mem := []
    draws := 0
    cfg := c
    loadable := true }

/-- The state after reset with the spec's default parameters (R23, log entry 1). -/
def State.reset : State := State.resetWith Config.default

end Sys2Proof.Machine
end

