-- ==== Sys2Proof/Machine/Ops.lean ====
section
/-! DEFINITION. The named operations over registers, memory, stack, keys, display and timers, taking a fault, and
fetching (spec 10_state.md, 20_memory.md, 42_display.md, 60_exceptions.md). -/

namespace Sys2Proof.Machine

/-- What a meaning answers. -/
abbrev Result := Host.Outcome State Fault Refusal

/-! ### Taking a fault (R171, R181) -/

/-- `raise Fault(code)` (R171): the instruction is abandoned, nothing changes but `STATUS`; `pc` keeps the address of
the faulting instruction. There is no return from it (R182): the one way out of a halt is `resetEngine`. -/
def raiseFault (f : Fault) (s : State) : Result := .next { s with status := .halted f }

/-- The event `reset` (R210): every state element at its reset value, from any state, halted or not. The parameters
stay, and so does the count of draws: nothing says that later random bytes repeat earlier ones (log entry 2). -/
def resetEngine (s : State) : State := { State.resetWith s.cfg with draws := s.draws }

/-- The first step, and a load, end the time in which an image may be loaded (R211, log entry 5). -/
def State.closeLoad (s : State) : State := { s with loadable := false }

/-- An instruction's new state, or the fault its check found, taken on the state before it (R70, R171). -/
def orRaise (s : State) : Except Fault State → Result
  | .ok t => .next t
  | .error f => raiseFault f s

/-! ### General registers (R10) -/

/-- `V[r]`. -/
def State.reg (s : State) (r : Reg) : Byte := s.v[r]

/-- `V[r] <- b`. -/
def State.setReg (s : State) (r : Reg) (b : Byte) : State := { s with v := s.v.set r b }

/-- The flag register VF, register 15 (R11). -/
def regVF : Reg := 15

/-! ### Program counter (R71) -/

/-- The default advance, `pc <- pc + 2`, a 16-bit addition (R12). -/
def State.advance (s : State) : State := { s with pc := s.pc + 2#16 }

/-- `pc <- target`. -/
def State.jumpTo (s : State) (target : Word) : State := { s with pc := target }

/-- The end of a skip: `pc + 4` when the condition holds, else `pc + 2`; the skipped word is not looked at. -/
def State.skipIf (s : State) (c : Bool) : State := { s with pc := if c then s.pc + 4#16 else s.pc + 2#16 }

/-! ### Memory (R40 to R48) -/

/-- What address `a` holds after reset, hence what an unlisted address reads as: the font at `FONT_BASE`, 0 elsewhere
(R23, R41). -/
def resetByte (c : Config) (a : Nat) : Byte :=
  if c.fontBase ≤ a ∧ a < c.fontBase + 80 then c.fontTable.getD (a - c.fontBase) 0#8 else 0#8

/-- `MEM[a]`: the listed byte, else the reset content. -/
def Memory.read (c : Config) (m : Memory) (a : Nat) : Byte :=
  match m with
  | [] => resetByte c a
  | (k, b) :: rest => if k = a then b else Memory.read c rest a

/-- The list without an entry for `a`. -/
def Memory.erase (m : Memory) (a : Nat) : Memory :=
  match m with
  | [] => []
  | (k, b) :: rest => if k = a then Memory.erase rest a else (k, b) :: Memory.erase rest a

/-- An entry put before the first entry of a higher address. -/
def Memory.insert (m : Memory) (a : Nat) (b : Byte) : Memory :=
  match m with
  | [] => [(a, b)]
  | (k, b') :: rest => if a < k then (a, b) :: (k, b') :: rest else (k, b') :: Memory.insert rest a b

/-- `MEM[a] <- b`, in canonical form: a byte equal to the reset content is not listed. -/
def Memory.write (c : Config) (m : Memory) (a : Nat) (b : Byte) : Memory :=
  if b = resetByte c a then Memory.erase m a else Memory.insert (Memory.erase m a) a b

/-- The canonical form from address `lo` up: rising addresses inside memory, no entry equal to the reset content. -/
def Memory.wfFrom (c : Config) (lo : Nat) : Memory → Bool
  | [] => true
  | (k, b) :: rest => decide (lo ≤ k) && decide (k ≤ 0xFFF) && (b != resetByte c k) && Memory.wfFrom c (k + 1) rest

/-- The canonical form of the memory list. -/
def Memory.wf (c : Config) (m : Memory) : Bool := Memory.wfFrom c 0 m

/-- The bytes of a list stored from address `a` up. -/
def Memory.writeBytes (c : Config) (m : Memory) (a : Nat) : List Byte → Memory
  | [] => m
  | b :: rest => Memory.writeBytes c (Memory.write c m a b) (a + 1) rest

/-- `MEM[a]` of a state. -/
def State.byteAt (s : State) (a : Nat) : Byte := Memory.read s.cfg s.mem a

/-- The range check of R48: the `n` bytes from `base` up lie in `0x000..0xFFF`; an empty range always does (R145 a). -/
def inMemory (base n : Nat) : Bool := decide (base + n ≤ 0x1000 ∨ n = 0)

/-- `MemRead` of `n` bytes from `base` up (R42), the check made first and for the whole range (R48). -/
def readBlock (s : State) (base n : Nat) : Except Fault (List Byte) :=
  if inMemory base n then .ok ((List.range n).map (fun k => s.byteAt (base + k)))
  else .error .accessOutOfRange

/-- `MemWrite` of the bytes from `base` up (R43), the check made first and for the whole range (R48). -/
def writeBlock (s : State) (base : Nat) (bytes : List Byte) : Except Fault State :=
  if inMemory base bytes.length then .ok { s with mem := Memory.writeBytes s.cfg s.mem base bytes }
  else .error .accessOutOfRange

/-! ### Fetch (R44, R45, R69) -/

/-- The fetch: the two bytes at `pc`, the first the more significant; none when `pc + 1` is above `0xFFF` (R44). -/
def fetchWord (s : State) : Except Fault Word :=
  if s.pc.toNat + 1 > 0xFFF then .error .fetchOutOfRange
  else .ok (wordOfBytes (s.byteAt s.pc.toNat) (s.byteAt (s.pc.toNat + 1)))

/-- Fetch and decode (R69); a word that is no instruction is `INVALID_INSTRUCTION` (R174). -/
def fetchInstr (s : State) : Except Fault Instr :=
  match fetchWord s with
  | .error f => .error f
  | .ok w =>
    match decodeWord s.cfg w with
    | .error _ => .error .invalidInstruction
    | .ok i => .ok i

/-! ### Index register (R13, R175) -/

/-- `I <- t`, checked: a value above `0xFFF` is `INVALID_MEMORY_ADDRESS` and is not written (R175). -/
def setIndex (s : State) (t : Nat) : Except Fault State :=
  if t > 0xFFF then .error .invalidMemoryAddress else .ok { s with i := BitVec.ofNat 16 t }

/-! ### Return stack (R14, R101, R103) -/

/-- The push of CALL: slot `SP` gets the address, `SP` counts up; a full stack is `STACK_OVERFLOW` (R103). -/
def pushReturn (s : State) (addr : Word) : Except Fault State :=
  if h : s.sp.val < 16 then
    .ok { s with stack := s.stack.set s.sp.val addr, sp := ⟨s.sp.val + 1, by omega⟩ }
  else .error .stackOverflow

/-- The pop of RET: slot `SP - 1` goes to `pc`, `SP` counts down, the slot keeps its value (R14); an empty stack is
`STACK_UNDERFLOW` (R101). -/
def popReturn (s : State) : Except Fault State :=
  if h : 0 < s.sp.val then
    .ok { s with pc := s.stack[s.sp.val - 1], sp := ⟨s.sp.val - 1, by omega⟩ }
  else .error .stackUnderflow

/-! ### Key latches (R16) -/

/-- `KEY[k]`, false for a number that is no key. -/
def State.keyAt (s : State) (k : Nat) : Bool := s.key[k]?.getD false

/-- All sixteen latches cleared. -/
def State.clearKeys (s : State) : State := { s with key := Vector.replicate 16 false }

/-- The least latched key, if any (R152). -/
def State.firstKey (s : State) : Option Nat := (List.range 16).find? s.keyAt

/-- The latch a key number selects; a number above 15 is `KEY_INDEX_OUT_OF_RANGE` (R109). -/
def selectKey (s : State) (k : Byte) : Except Fault Bool :=
  if k.toNat > 15 then .error .keyIndexOutOfRange else .ok (s.keyAt k.toNat)

/-! ### Display (R17, R140 to R144) -/

/-- `PIX[col, row]`. -/
def getPixel (d : Display) (col : Fin 64) (row : Fin 32) : Bool := d[row][col]

/-- `PIX[col, row] <- b`. -/
def setPixel (d : Display) (col : Fin 64) (row : Fin 32) (b : Bool) : Display :=
  d.set row (d[row].set col b)

/-- All pixels 0 (R100). -/
def blankDisplay : Display := Vector.replicate 32 (Vector.replicate 64 false)

/-- The column of sprite column `c` with its origin at column `ox`: `(ox + c) mod 64` (R144). -/
def wrapCol (ox c : Nat) : Fin 64 := Fin.ofNat 64 (ox + c)

/-- The row of sprite row `r` with its origin at row `oy`: `(oy + r) mod 32` (R144). -/
def wrapRow (oy r : Nat) : Fin 32 := Fin.ofNat 32 (oy + r)

/-- Sprite column `c` of a sprite byte: bit `7 - c` (R142). -/
def spriteBit (b : Byte) (c : Nat) : Bool := b.getLsbD (7 - c)

/-- One sprite pixel: the display pixel becomes `old XOR s`, the collision result `hit OR (old AND s)` (R143). -/
def drawPixel (col : Fin 64) (row : Fin 32) (bit : Bool) (acc : Display × Bool) : Display × Bool :=
  let old := getPixel acc.1 col row
  (setPixel acc.1 col row (old ^^ bit), acc.2 || (old && bit))

/-- One sprite row: its eight columns in order (R141). -/
def drawRow (ox : Nat) (row : Fin 32) (b : Byte) (acc : Display × Bool) : Display × Bool :=
  (List.range 8).foldl (fun acc c => drawPixel (wrapCol ox c) row (spriteBit b c) acc) acc

/-- The sprite rows from row `r` down (R141). -/
def drawRows (ox oy : Nat) (r : Nat) : List Byte → Display × Bool → Display × Bool
  | [], acc => acc
  | b :: rest, acc => drawRows ox oy (r + 1) rest (drawRow ox (wrapRow oy r) b acc)

/-- A sprite drawn at an origin: the new display and the collision result (R141, R143). -/
def drawSprite (ox oy : Nat) (bytes : List Byte) (d : Display) : Display × Bool :=
  drawRows ox oy 0 bytes (d, false)

/-- A pixel of a state. -/
def State.pixel (s : State) (col : Fin 64) (row : Fin 32) : Bool := getPixel s.pix col row

/-! ### Timers and the tone output (R187, R188, R192) -/

/-- One tick of a timer: down by one, never below zero. -/
def countDown (b : Byte) : Byte := if b.toNat > 0 then b - 1#8 else b

/-- The output `tone` (R192). -/
def State.tone (s : State) : Bool := decide (s.st.toNat > 0)

end Sys2Proof.Machine
end

