-- ==== Sys2Proof/Machine/Flags.lean ====
section
/-! DEFINITION. The flag computations of spec 10_state.md R11 and 41_register_arithmetic.md, and the order in which a
result and its flag are written (30_encoding.md R70). -/

namespace Sys2Proof.Machine

/-- `b2n`: the byte 1 or 0 (R11: a flag write stores 0 or 1). -/
def b2n (c : Bool) : Byte := if c then 1#8 else 0#8

/-- ADD Vx, Vy: 1 iff the integer sum exceeds 255 (R126). -/
def flagCarry (a b : Byte) : Byte := b2n (decide (a.toNat + b.toNat > 255))

/-- SUB and SUBN: 1 iff the minuend is not below the subtrahend (R127, R129). -/
def flagNoBorrow (minuend subtrahend : Byte) : Byte := b2n (decide (minuend.toNat ≥ subtrahend.toNat))

/-- SHR: bit 0 before the shift (R128). -/
def flagShiftRight (a : Byte) : Byte := b2n (a.getLsbD 0)

/-- SHL: 1 iff the value before the shift is strictly above 128; not bit 7 (R130, R216). -/
def flagShiftLeft (a : Byte) : Byte := b2n (decide (a.toNat > 128))

/-- DRW: 1 iff a collision happened (R141, R143). -/
def flagCollision (hit : Bool) : Byte := b2n hit

/-- The result written to `V[x]` first, the flag to `V[15]` second: with `x = 15` the flag stays (R70). -/
def State.setRegThenFlag (s : State) (x : Reg) (result flag : Byte) : State :=
  (s.setReg x result).setReg regVF flag

end Sys2Proof.Machine
end

