-- ==== Sys2Proof/Machine/Operands.lean ====
section
/-! DEFINITION. The operand forms: addresses, blocks of registers, decimal digits, font glyphs (spec 30_encoding.md
R62, 43_input_timers_memory.md R156 to R159). -/

namespace Sys2Proof.Machine

/-- `nnn` as a 16-bit value, zero-extended (R62). -/
def addrWord (nnn : Addr) : Word := nnn.setWidth 16

/-- The registers `V0..Vx` in order, V0 first (R158). -/
def State.regsUpTo (s : State) (x : Reg) : List Byte := s.v.toList.take (x.val + 1)

/-- Bytes put into registers `k`, `k + 1`, ... (R159). -/
def fillRegs (v : Vector Byte 16) (k : Nat) : List Byte → Vector Byte 16
  | [] => v
  | b :: rest => fillRegs (v.setIfInBounds k b) (k + 1) rest

/-- The three decimal digits, hundreds first (R157). -/
def bcdDigits (a : Byte) : List Byte :=
  [BitVec.ofNat 8 (a.toNat / 100), BitVec.ofNat 8 (a.toNat / 10 % 10), BitVec.ofNat 8 (a.toNat % 10)]

/-- The address of the glyph of a register value's low nibble: `FONT_BASE + 5 * d` (R156). -/
def glyphAddress (c : Config) (b : Byte) : Nat := c.fontBase + 5 * (b &&& 0x0F#8).toNat

end Sys2Proof.Machine
end

