-- ==== Sys2Proof/Machine/Alu.lean ====
section
/-! DEFINITION. The register, arithmetic and logic instructions (spec 41_register_arithmetic.md). -/

namespace Sys2Proof.Machine

/-- A register result without a flag: `V[x] <- result`, `pc <- pc + 2`. -/
def putReg (s : State) (x : Reg) (result : Byte) : Result := .next (s.setReg x result).advance

/-- A register result with a flag, the flag written last (R70): `pc <- pc + 2`. -/
def putRegFlag (s : State) (x : Reg) (result flag : Byte) : Result :=
  .next (s.setRegThenFlag x result flag).advance

/-- LD Vx, kk (R120). -/
def execLdImm (x : Reg) (kk : Byte) (s : State) : Result := putReg s x kk

/-- ADD Vx, kk (R121): wraps, writes no flag. -/
def execAddImm (x : Reg) (kk : Byte) (s : State) : Result := putReg s x (s.reg x + kk)

/-- LD Vx, Vy (R122). -/
def execLdReg (x y : Reg) (s : State) : Result := putReg s x (s.reg y)

/-- OR Vx, Vy (R123): writes no flag. -/
def execOrReg (x y : Reg) (s : State) : Result := putReg s x (s.reg x ||| s.reg y)

/-- AND Vx, Vy (R124): writes no flag. -/
def execAndReg (x y : Reg) (s : State) : Result := putReg s x (s.reg x &&& s.reg y)

/-- XOR Vx, Vy (R125): writes no flag. -/
def execXorReg (x y : Reg) (s : State) : Result := putReg s x (s.reg x ^^^ s.reg y)

/-- ADD Vx, Vy (R126). -/
def execAddReg (x y : Reg) (s : State) : Result :=
  putRegFlag s x (s.reg x + s.reg y) (flagCarry (s.reg x) (s.reg y))

/-- SUB Vx, Vy (R127). -/
def execSub (x y : Reg) (s : State) : Result :=
  putRegFlag s x (s.reg x - s.reg y) (flagNoBorrow (s.reg x) (s.reg y))

/-- SHR Vx (R128): shifts `V[x]` in place; the field `y` is ignored. -/
def execShr (x _y : Reg) (s : State) : Result := putRegFlag s x (s.reg x >>> 1) (flagShiftRight (s.reg x))

/-- SUBN Vx, Vy (R129). -/
def execSubn (x y : Reg) (s : State) : Result :=
  putRegFlag s x (s.reg y - s.reg x) (flagNoBorrow (s.reg y) (s.reg x))

/-- SHL Vx (R130): shifts `V[x]` in place; the field `y` is ignored. -/
def execShl (x _y : Reg) (s : State) : Result := putRegFlag s x (s.reg x <<< 1) (flagShiftLeft (s.reg x))

/-- LD I, nnn (R131). -/
def execLdI (nnn : Addr) (s : State) : Result := orRaise s ((setIndex s nnn.toNat).map State.advance)

/-- RND Vx, kk (R132): the next free byte, masked. -/
def execRnd (x : Reg) (kk : Byte) (s : State) : Result :=
  putReg { s with draws := s.draws + 1 } x (Config.randomByte s.draws &&& kk)

end Sys2Proof.Machine
end

