-- ==== Sys2Proof/Machine/Control.lean ====
section
/-! DEFINITION. The control-flow instructions (spec 40_control_flow.md). In every meaning `s.pc` is the address of the
instruction being executed; operands are read from `s` before anything is written (30_encoding.md R70). -/

namespace Sys2Proof.Machine

/-- CLS (R100): all pixels 0, `REDRAW` set whatever the display held. -/
def execCls (s : State) : Result := .next { s with pix := blankDisplay, redraw := true }.advance

/-- RET (R101). -/
def execRet (s : State) : Result := orRaise s (popReturn s)

/-- JP nnn (R102). -/
def execJp (nnn : Addr) (s : State) : Result := .next (s.jumpTo (addrWord nnn))

/-- CALL nnn (R103): the address of the next instruction is pushed, then the jump. -/
def execCall (nnn : Addr) (s : State) : Result :=
  orRaise s ((pushReturn s (s.pc + 2#16)).map (fun t => t.jumpTo (addrWord nnn)))

/-- JP V0, nnn (R104): the plain sum, not reduced modulo 4096. -/
def execJpV0 (nnn : Addr) (s : State) : Result :=
  .next (s.jumpTo (BitVec.ofNat 16 (nnn.toNat + (s.reg 0).toNat)))

/-- SE Vx, kk (R105). -/
def execSeImm (x : Reg) (kk : Byte) (s : State) : Result := .next (s.skipIf (s.reg x == kk))

/-- SNE Vx, kk (R106). -/
def execSneImm (x : Reg) (kk : Byte) (s : State) : Result := .next (s.skipIf (s.reg x != kk))

/-- SE Vx, Vy (R107). -/
def execSeReg (x y : Reg) (s : State) : Result := .next (s.skipIf (s.reg x == s.reg y))

/-- SNE Vx, Vy (R108). -/
def execSneReg (x y : Reg) (s : State) : Result := .next (s.skipIf (s.reg x != s.reg y))

/-- SKP Vx (R109): the key numbered by the value of `V[x]`; all latches are cleared whatever the outcome. -/
def execSkp (x : Reg) (s : State) : Result :=
  orRaise s ((selectKey s (s.reg x)).map (fun pressed => s.clearKeys.skipIf pressed))

/-- SKNP Vx (R110). -/
def execSknp (x : Reg) (s : State) : Result :=
  orRaise s ((selectKey s (s.reg x)).map (fun pressed => s.clearKeys.skipIf (!pressed)))

end Sys2Proof.Machine
end

