-- ==== Sys2Proof/Machine/Draw.lean ====
section
/-! DEFINITION. The draw instruction (spec 42_display.md). -/

namespace Sys2Proof.Machine

/-- DRW Vx, Vy, n (R141, R145): the origin is read before VF is written, the sprite's bytes are checked as one range,
and `REDRAW` is set whatever changed. -/
def execDrw (x y : Reg) (n : Fin 16) (s : State) : Result :=
  orRaise s ((readBlock s s.i.toNat n.val).map (fun bytes =>
    let drawn := drawSprite (s.reg x).toNat (s.reg y).toNat bytes s.pix
    ({ s with pix := drawn.1, redraw := true }.setReg regVF (flagCollision drawn.2)).advance))

end Sys2Proof.Machine
end

