-- ==== Sys2Proof/Machine/Input.lean ====
section
/-! DEFINITION. The input, timer, index and memory-block instructions (spec 43_input_timers_memory.md). -/

namespace Sys2Proof.Machine

/-- LD Vx, DT (R150). -/
def execLdVxDt (x : Reg) (s : State) : Result := .next (s.setReg x s.dt).advance

/-- LD Vx, ST (R151). -/
def execLdVxSt (x : Reg) (s : State) : Result := .next (s.setReg x s.st).advance

/-- LD Vx, K (R152): the least latched key, all latches consumed; with none latched nothing changes, `pc` included, so
that the next step executes the word again. -/
def execLdVxK (x : Reg) (s : State) : Result :=
  match s.firstKey with
  | some k => .next (s.clearKeys.setReg x (BitVec.ofNat 8 k)).advance
  | none => .next s

/-- LD DT, Vx (R153). -/
def execLdDtVx (x : Reg) (s : State) : Result := .next { s with dt := s.reg x }.advance

/-- LD ST, Vx (R154). -/
def execLdStVx (x : Reg) (s : State) : Result := .next { s with st := s.reg x }.advance

/-- ADD I, Vx (R155): the integer sum, checked; writes no flag. -/
def execAddI (x : Reg) (s : State) : Result :=
  orRaise s ((setIndex s (s.i.toNat + (s.reg x).toNat)).map State.advance)

/-- LD F, Vx (R156). -/
def execLdF (x : Reg) (s : State) : Result :=
  orRaise s ((setIndex s (glyphAddress s.cfg (s.reg x))).map State.advance)

/-- LD B, Vx (R157). -/
def execLdB (x : Reg) (s : State) : Result :=
  orRaise s ((writeBlock s s.i.toNat (bcdDigits (s.reg x))).map State.advance)

/-- LD [I], Vx (R158): `I` is unchanged. -/
def execStoreRegs (x : Reg) (s : State) : Result :=
  orRaise s ((writeBlock s s.i.toNat (s.regsUpTo x)).map State.advance)

/-- LD Vx, [I] (R159): `I` is unchanged. -/
def execLoadRegs (x : Reg) (s : State) : Result :=
  orRaise s ((readBlock s s.i.toNat (x.val + 1)).map (fun bytes => { s with v := fillRegs s.v 0 bytes }.advance))

end Sys2Proof.Machine
end

