-- ==== Sys2Proof/Machine/Step.lean ====
section
/-! DEFINITION. One `step` event (spec 30_encoding.md R69, 60_exceptions.md R180), and the host's way to place the next
instruction. -/

namespace Sys2Proof.Machine

/-- One fetch-decode-execute cycle (R69). A halted engine does nothing (R172); a fault of the fetch or of the decoding
is taken (R171). The check of `STATUS` stands here alone (log entry 4). A step of a running
engine ends the time for a load (R211, log entry 5). -/
def step (s : State) : Host.Outcome State Fault Refusal :=
  match s.status with
  | .halted _ => .next s
  | .running =>
    match fetchInstr s with
    | .error f => raiseFault f s.closeLoad
    | .ok i => exec i s.closeLoad

/-- The state with a table word's two bytes stored at `pc`, where the next fetch reads them, and `STATUS` running, as
the fetch needs it (log entry 10). -/
def State.withFetchWord (s : State) (nbits w : Nat) : State :=
  { s with mem := Memory.writeBytes s.cfg s.mem s.pc.toNat (tableBytes nbits w), status := .running }

end Sys2Proof.Machine
end

