-- ==== Sys2Proof/Machine/Events.lean ====
section
/-! DEFINITION. The events of the host interface other than `step` (spec 60_exceptions.md R193, 70_reset_and_hazards.md
R210, R211). Every event is atomic and lands between steps (R185, log entry 12). -/

namespace Sys2Proof.Machine

/-- What a halted engine does with an event that is no reset: nothing (R172). -/
def State.whenRunning (s : State) (t : State) : State :=
  match s.status with
  | .running => t
  | .halted _ => s

/-- `tick_delay` (R187). -/
def tickDelay (s : State) : State := s.whenRunning { s with dt := countDown s.dt }

/-- `tick_sound` (R188). -/
def tickSound (s : State) : State := s.whenRunning { s with st := countDown s.st }

/-- `tick_timers` (R189). -/
def tickTimers (s : State) : State := tickSound (tickDelay s)

/-- `set_key(k, b)` (R190); the number is below 16 by its type (log entry 16). -/
def setKey (k : Fin 16) (b : Bool) (s : State) : State := s.whenRunning { s with key := s.key.set k b }

/-- `ack_redraw` (R191). -/
def ackRedraw (s : State) : State := s.whenRunning { s with redraw := false }

/-- A load is permitted "once, after `reset` and before the first `step`" (R211); a halted engine has stepped. -/
def State.launchable (s : State) : Bool := s.loadable && decide (s.status = .running)

/-- `load_program(bytes)` (R211): the image copied from `LOAD_ADDRESS` up, once; refused after a load or a step, and when
it is too long. -/
def loadProgram (bytes : List Byte) (s : State) : Result :=
  if !s.launchable then .refused .loadNotPermitted
  else if bytes.length > 4096 - s.cfg.loadAddress then .refused .imageTooLong
  else .next { s with mem := Memory.writeBytes s.cfg s.mem s.cfg.loadAddress bytes }.closeLoad

/-- The events of R193 that may change the engine. -/
inductive Event where
  | reset
  | loadProgram (bytes : List Byte)
  | step
  | tickDelay
  | tickSound
  | tickTimers
  | setKey (k : Fin 16) (b : Bool)
  | ackRedraw
deriving DecidableEq, Repr

/-- The engine's answer to an event (R193). -/
def handle (e : Event) (s : State) : Result :=
  match e with
  | .reset => .next (resetEngine s)
  | .loadProgram bytes => Sys2Proof.Machine.loadProgram bytes s
  | .step => Sys2Proof.Machine.step s
  | .tickDelay => .next (Sys2Proof.Machine.tickDelay s)
  | .tickSound => .next (Sys2Proof.Machine.tickSound s)
  | .tickTimers => .next (Sys2Proof.Machine.tickTimers s)
  | .setKey k b => .next (Sys2Proof.Machine.setKey k b s)
  | .ackRedraw => .next (Sys2Proof.Machine.ackRedraw s)

/-- The result a `step` event hands to the host: none for "ok", else the fault code (R171, R193), read off `STATUS`
(log entry 13). -/
def State.faultCode (s : State) : Option Fault :=
  match s.status with
  | .running => none
  | .halted f => some f

end Sys2Proof.Machine
end

