-- ==== Sys2Proof/Safety.lean ====
section
/-! DEFINITION. The terms claims are stated in: the parts of the state and what leaves them alone, taking a fault, the
fault conditions of spec 60_exceptions.md R170, the invariant of 10_state.md R24, the reachable states, the end of a run
(60_exceptions.md R196). -/

namespace Sys2Proof.Machine

/-! ### Frames -/

/-- The parts of the state: together they are all of it (R21), the model's own fields among them. -/
inductive Part where
  | reg (r : Reg)
  | pc
  | index
  | slot (k : Fin 16)
  | sp
  | delay
  | sound
  | key (k : Fin 16)
  | pixel (col : Fin 64) (row : Fin 32)
  | redraw
  | status
  | byte (a : Nat)
  | draws
  | params
  | loadable
deriving DecidableEq, Repr

/-- The part reads the same in both states; memory through the read of one byte. -/
def Part.same (s t : State) : Part → Prop
  | .reg r => t.reg r = s.reg r
  | .pc => t.pc = s.pc
  | .index => t.i = s.i
  | .slot k => t.stack[k] = s.stack[k]
  | .sp => t.sp = s.sp
  | .delay => t.dt = s.dt
  | .sound => t.st = s.st
  | .key k => t.key[k] = s.key[k]
  | .pixel col row => t.pixel col row = s.pixel col row
  | .redraw => t.redraw = s.redraw
  | .status => t.status = s.status
  | .byte a => t.byteAt a = s.byteAt a
  | .draws => t.draws = s.draws
  | .params => t.cfg = s.cfg
  | .loadable => t.loadable = s.loadable

/-- Every part but those `P` names is the same in `t` as in `s`. -/
def OnlyChanges (s t : State) (P : Part → Prop) : Prop := ∀ p, ¬ P p → Part.same s t p

/-! ### Instructions -/

/-- The word is the instruction's encoding, whatever the parameters. -/
def HasWord (i : Instr) (w : Word) : Prop := ∀ c : Config, decodeWord c w = .ok i

/-- Executing `i` takes the fault: nothing changes but `STATUS` (R171). -/
def TakesFault (i : Instr) (s : State) (f : Fault) : Prop := exec i s = .next { s with status := .halted f }

/-- Instructions executed one after the other, each on the state the one before it left. -/
def execAll : List Instr → State → Result
  | [], s => .next s
  | i :: rest, s =>
    match exec i s with
    | .next t => execAll rest t
    | .fault f => .fault f
    | .refused r => .refused r

/-- The operations that write VF as a flag (the table of R11). -/
def WritesFlag : Instr → Prop
  | .addReg _ _ | .sub _ _ | .shr _ _ | .subn _ _ | .shl _ _ | .drw _ _ _ => True
  | _ => False

/-- The instruction names register `r` as its destination (R11: "unless it names VF as its destination `x`, or, for
the block load, includes register 15 in its range"). -/
def NamesDest (r : Reg) : Instr → Prop
  | .ldImm x _ | .addImm x _ | .rnd x _ | .ldVxDt x | .ldVxK x | .ldVxSt x => r = x
  | .ldReg x _ | .orReg x _ | .andReg x _ | .xorReg x _ | .addReg x _ | .sub x _ => r = x
  | .shr x _ | .subn x _ | .shl x _ => r = x
  | .loadRegs x => r.val ≤ x.val
  | _ => False

/-- The addresses an instruction reads (the table of R53, its "read" rows). -/
def ReadsByte (i : Instr) (s : State) (a : Nat) : Prop :=
  match i with
  | .drw _ _ n => s.i.toNat ≤ a ∧ a < s.i.toNat + n.val
  | .loadRegs x => s.i.toNat ≤ a ∧ a ≤ s.i.toNat + x.val
  | _ => False

/-! ### Faults -/

/-- The condition on which executing `i` raises `f` (the table of R170). -/
def ExecFaultCondition (i : Instr) (s : State) : Fault → Prop
  | .stackUnderflow => i = .ret ∧ s.sp.val = 0
  | .stackOverflow => ∃ nnn, i = .call nnn ∧ s.sp.val = 16
  | .invalidInstruction => False
  | .invalidMemoryAddress => ∃ x, i = .addI x ∧ 0xFFF < s.i.toNat + (s.reg x).toNat
  | .accessOutOfRange =>
      (∃ x y n, i = .drw x y n ∧ 0 < n.val ∧ 0xFFF < s.i.toNat + n.val - 1)
        ∨ (∃ x, i = .ldB x ∧ 0xFFF < s.i.toNat + 2)
        ∨ (∃ x, i = .storeRegs x ∧ 0xFFF < s.i.toNat + x.val)
        ∨ (∃ x, i = .loadRegs x ∧ 0xFFF < s.i.toNat + x.val)
  | .fetchOutOfRange => False
  | .keyIndexOutOfRange => ∃ x, (i = .skp x ∨ i = .sknp x) ∧ 15 < (s.reg x).toNat

/-- The condition on which a step of a running engine raises `f` (the table of R170). -/
def StepFaultCondition (s : State) (f : Fault) : Prop :=
  (f = .fetchOutOfRange ∧ 0xFFF < s.pc.toNat + 1)
    ∨ (f = .invalidInstruction ∧ ∃ w, fetchWord s = .ok w ∧ ∀ row ∈ opcodeRows s.cfg, w &&& row.mask ≠ row.pattern)
    ∨ (∃ i, fetchInstr s = .ok i ∧ ExecFaultCondition i s f)

/-! ### Good states and runs -/

/-- What every reachable state satisfies (R24, R13): legal parameters, memory in canonical form, `I` inside memory,
return addresses at most `0x1000` (what CALL at `0xFFE` pushes, R103) and `pc` at most `0x10FE` (R12). `SP <= 16` is
in the type of `sp`. The model's own record: a halted engine has stepped, so no load is permitted (log entry 5). -/
structure State.Inv (s : State) : Prop where
  cfgLegal : s.cfg.wf = true
  memCanonical : Memory.wf s.cfg s.mem = true
  indexInMemory : s.i.toNat ≤ 0xFFF
  returnsBounded : ∀ k : Fin 16, (s.stack[k]).toNat ≤ 0x1000
  pcBounded : s.pc.toNat ≤ 0x10FE
  loadableRuns : s.loadable = true → s.status = .running

/-- The states the events of R193 can bring an engine with legal parameters into, from its first reset on. -/
inductive Reachable : State → Prop where
  | start (c : Config) (h : c.wf = true) : Reachable (State.resetWith c)
  | event (e : Event) (s t : State) (hs : Reachable s) (h : handle e s = .next t) : Reachable t

/-- Events handled one after the other, each on the state the one before it left; a refused one ends the list. -/
def handleAll : List Event → State → Result
  | [], s => .next s
  | e :: rest, s =>
    match handle e s with
    | .next t => handleAll rest t
    | .fault f => .fault f
    | .refused r => .refused r

/-- `END_OF_RUN` (R196): running, with a jump to itself at `pc`. DESIGN CHOICE: the spec's recommended predicate
(log entry 14). -/
def State.EndOfRun (s : State) : Prop :=
  s.status = .running ∧ ∃ nnn : Addr, fetchInstr s = .ok (.jp nnn) ∧ s.pc = nnn.setWidth 16

end Sys2Proof.Machine
end

