-- ==== Sys2Proof/Certificates/Slice0/Obligations.lean ====
section
/-! DEFINITION. The statements for the provers. Each docstring names the rule of spec/ it formalises. -/

open Sys2Proof Sys2Proof.Machine

/-! ### Encoding and decoding -/

/-- R61, R66: decoding the word of a well-formed instruction gives it back, every operand at every value. -/
def Obligations.DecodeUndoesEncode : Prop :=
  ∀ (c : Config) (i : Instr), c.wf = true → i.wf c = true →
    ∃ w, encodeWord c i = some w ∧ decodeWord c w = .ok i

/-- R61, R66: a word that decodes is the word of the instruction it decodes to. -/
def Obligations.EncodeUndoesDecode : Prop :=
  ∀ (c : Config) (w : Word) (i : Instr), decodeWord c w = .ok i → encodeWord c i = some w

/-- R66: "a word `w` is the instruction of a row iff `w & mask == match`", row 35 where its parameter is present. -/
def Obligations.DecodeFollowsOpcodeRows : Prop :=
  ∀ c : Config, c.wf = true →
    (∀ w i, decodeWord c w = .ok i →
      ∃ row ∈ opcodeRows c, row.number = i.row ∧ w &&& row.mask = row.pattern) ∧
    (∀ w, ∀ row ∈ opcodeRows c, w &&& row.mask = row.pattern →
      ∃ i, decodeWord c w = .ok i ∧ i.row = row.number)

/-- R66: one word of each pattern, written out, decodes to the instruction it stands for. A sanity statement. -/
def Obligations.SampleWordsDecode : Prop :=
  decodeTableWord 16 0x00E0 = some .cls ∧ decodeTableWord 16 0x2345 = some (.call 0x345#12) ∧
  decodeTableWord 16 0x6A02 = some (.ldImm 10 0x02#8) ∧ decodeTableWord 16 0x7A03 = some (.addImm 10 0x03#8) ∧
  decodeTableWord 16 0x81F4 = some (.addReg 1 15) ∧ decodeTableWord 16 0xD235 = some (.drw 2 3 5) ∧
  decodeTableWord 16 0xE49E = some (.skp 4) ∧ decodeTableWord 16 0xF265 = some (.loadRegs 2) ∧
  decodeTableWord 16 0x5121 = none ∧ decodeTableWord 16 0xF508 = none

/-! ### The step -/

/-- R69: on a running engine whose two bytes at `pc` decode to `i`, a step is exactly the meaning of `i`, once the
time for a load is closed (the model's own record, log entry 5); `pc` is moved by the meaning itself. -/
def Obligations.StepRunsDecodedInstruction : Prop :=
  ∀ (s : State) (i : Instr), s.status = .running → s.pc.toNat + 1 ≤ 0xFFF →
    decodeWord s.cfg (wordOfBytes (s.byteAt s.pc.toNat) (s.byteAt (s.pc.toNat + 1))) = .ok i →
    step s = exec i s.closeLoad

/-- R44: the fetched word is `MEM[pc] * 256 + MEM[pc + 1]`, and a fetch with `pc >= 0xFFF` is
`FETCH_OUT_OF_RANGE`. Of the model's own record `loadable` (log entry 5) it says nothing. -/
def Obligations.FetchIsBigEndianOrFaults : Prop :=
  ∀ s : State,
    (s.pc.toNat < 0xFFF → ∃ w, fetchWord s = .ok w ∧
      w.toNat = (s.byteAt s.pc.toNat).toNat * 256 + (s.byteAt (s.pc.toNat + 1)).toNat) ∧
    (0xFFF ≤ s.pc.toNat → s.status = .running → ∃ t, step s = .next t ∧ t.status = .halted .fetchOutOfRange ∧
      OnlyChanges s t (fun p => p = .status ∨ p = .loadable))

/-- R174: a fetched word that matches no row of the opcode table halts the engine with `INVALID_INSTRUCTION`, and
nothing else changes. Of the model's own record `loadable` (log entry 5) it says nothing. -/
def Obligations.UnmatchedWordHalts : Prop :=
  ∀ (s : State) (w : Word), s.status = .running → fetchWord s = .ok w →
    (∀ row ∈ opcodeRows s.cfg, w &&& row.mask ≠ row.pattern) →
    ∃ t, step s = .next t ∧ t.status = .halted .invalidInstruction ∧
      OnlyChanges s t (fun p => p = .status ∨ p = .loadable)

/-- R69, R172: every instruction on every state, and a step from every state, answers a next state. -/
def Obligations.EveryStepAnswersAState : Prop :=
  (∀ (i : Instr) (s : State), ∃ t, exec i s = .next t) ∧ (∀ s : State, ∃ t, step s = .next t)

/-- R171: the step that faults changes nothing but `STATUS`. Two parts are the model's choice: the step also closes the
time for a load (`loadable`, log entry 5), and the result the host gets is read off `STATUS` (log entry 13). -/
def Obligations.FaultChangesOnlyStatus : Prop :=
  ∀ (s t : State) (f : Fault), s.status = .running → step s = .next t → t.status = .halted f →
    t = { s.closeLoad with status := .halted f } ∧ t.faultCode = some f

/-- R170: a step of a running engine halts with a code exactly on the condition the table of faults gives for it, and no
other event stops the engine. -/
def Obligations.StepHaltsExactlyOnListedConditions : Prop :=
  ∀ (s : State) (f : Fault), s.cfg.wf = true → s.status = .running →
    ((∃ t, step s = .next t ∧ t.status = .halted f) ↔ StepFaultCondition s f) ∧
    (∀ (e : Event) (t : State), handle e s = .next t → t.status = .halted f → e = .step)

/-- R172: while halted every event but `reset` and `load_program` changes nothing, and `reset` leaves the halt. That every
load is refused while halted, as `loadNotPermitted`, rests on R211 and U12, in the form of log entry 5, the model's
choice. -/
def Obligations.HaltedEngineOnlyResets : Prop :=
  ∀ (s : State) (f : Fault), s.status = .halted f →
    (∀ e : Event, e ≠ .reset → (∀ bytes, e ≠ .loadProgram bytes) → handle e s = .next s) ∧
    (∀ bytes, handle (.loadProgram bytes) s = .refused .loadNotPermitted) ∧
    (∃ t, handle .reset s = .next t ∧ t.status = .running)

/-- The host's placing of a word (log entry 10): the next step runs exactly that instruction. -/
def Obligations.PlacedWordRunsNext : Prop :=
  ∀ (s : State) (w : Nat) (i : Instr), s.pc.toNat + 1 ≤ 0xFFF → w < 65536 →
    decodeWord s.cfg (BitVec.ofNat 16 w) = .ok i →
    step (s.withFetchWord 16 w) = exec i (s.withFetchWord 16 w).closeLoad

/-! ### Control flow -/

/-- R100: CLS. -/
def Obligations.ClsBlanksDisplayAndRaisesRedraw : Prop :=
  HasWord .cls 0x00E0#16 ∧ ∀ s : State, ∃ t, exec .cls s = .next t ∧
    (∀ col row, t.pixel col row = false) ∧ t.redraw = true ∧ t.pc = s.pc + 2#16 ∧
    OnlyChanges s t (fun p => p = .pc ∨ p = .redraw ∨ ∃ col row, p = .pixel col row)

/-- R101: RET. -/
def Obligations.RetPopsIntoPcOrUnderflows : Prop :=
  HasWord .ret 0x00EE#16 ∧
  (∀ (s : State) (k : Fin 16), s.sp.val = k.val + 1 → ∃ t, exec .ret s = .next t ∧
    t.pc = s.stack[k] ∧ t.sp.val = k.val ∧ OnlyChanges s t (fun p => p = .pc ∨ p = .sp)) ∧
  (∀ s : State, s.sp.val = 0 → TakesFault .ret s .stackUnderflow)

/-- R103: CALL nnn. -/
def Obligations.CallPushesNextAddressOrOverflows : Prop :=
  ∀ nnn : Addr, HasWord (.call nnn) (encodeNnn 0x2#4 nnn) ∧
  (∀ (s : State) (k : Fin 16), s.sp.val = k.val → ∃ t, exec (.call nnn) s = .next t ∧
    t.stack[k] = s.pc + 2#16 ∧ t.sp.val = k.val + 1 ∧ t.pc.toNat = nnn.toNat ∧
    OnlyChanges s t (fun p => p = .pc ∨ p = .sp ∨ p = .slot k)) ∧
  (∀ s : State, s.sp.val = 16 → TakesFault (.call nnn) s .stackOverflow)

/-- R173: from an empty stack sixteen nested CALLs succeed and the seventeenth overflows; N nested CALLs and N RETs
end at the instruction after the outermost CALL with an empty stack, and a further RET underflows. -/
def Obligations.NestedCallsReturnToOutermostCaller : Prop :=
  ∀ (s : State) (targets : List Addr), s.sp.val = 0 → targets.length ≤ 16 →
    (∃ t, execAll (targets.map .call) s = .next t ∧ t.sp.val = targets.length ∧ t.status = s.status ∧
      (targets.length = 16 → ∀ nnn, TakesFault (.call nnn) t .stackOverflow)) ∧
    (0 < targets.length →
      ∃ u, execAll (targets.map .call ++ List.replicate targets.length .ret) s = .next u ∧ u.sp.val = 0 ∧
        u.pc = s.pc + 2#16 ∧ u.status = s.status ∧ TakesFault .ret u .stackUnderflow)

/-- R102, R104: JP nnn and JP V0, nnn set `pc` to the target, a plain sum for the second, and change nothing else. -/
def Obligations.JumpsSetOnlyPc : Prop :=
  ∀ (nnn : Addr) (s : State),
    HasWord (.jp nnn) (encodeNnn 0x1#4 nnn) ∧ HasWord (.jpV0 nnn) (encodeNnn 0xB#4 nnn) ∧
    (∃ t, exec (.jp nnn) s = .next t ∧ t.pc.toNat = nnn.toNat ∧ OnlyChanges s t (fun p => p = .pc)) ∧
    (∃ t, exec (.jpV0 nnn) s = .next t ∧ t.pc.toNat = nnn.toNat + (s.reg 0).toNat ∧
      OnlyChanges s t (fun p => p = .pc))

/-- R105 to R108: the four skips that compare registers and immediates; the two that compare registers have a trailing
nibble 0, and no word with another one. -/
def Obligations.RegisterSkipsAddTwoOrFour : Prop :=
  ∀ (x y : Reg) (kk : Byte) (s : State),
    HasWord (.seImm x kk) (encodeXKk 0x3#4 x kk) ∧ HasWord (.sneImm x kk) (encodeXKk 0x4#4 x kk) ∧
    HasWord (.seReg x y) (encodeXYN 0x5#4 x y 0x0#4) ∧ HasWord (.sneReg x y) (encodeXYN 0x9#4 x y 0x0#4) ∧
    (∀ (n : BitVec 4) (c : Config), n ≠ 0x0#4 →
      decodeWord c (encodeXYN 0x5#4 x y n) = .error .illegalGroup5 ∧
      decodeWord c (encodeXYN 0x9#4 x y n) = .error .illegalGroup9) ∧
    (∃ t, exec (.seImm x kk) s = .next t ∧ OnlyChanges s t (fun p => p = .pc) ∧
      (s.reg x = kk → t.pc = s.pc + 4#16) ∧ (s.reg x ≠ kk → t.pc = s.pc + 2#16)) ∧
    (∃ t, exec (.sneImm x kk) s = .next t ∧ OnlyChanges s t (fun p => p = .pc) ∧
      (s.reg x ≠ kk → t.pc = s.pc + 4#16) ∧ (s.reg x = kk → t.pc = s.pc + 2#16)) ∧
    (∃ t, exec (.seReg x y) s = .next t ∧ OnlyChanges s t (fun p => p = .pc) ∧
      (s.reg x = s.reg y → t.pc = s.pc + 4#16) ∧ (s.reg x ≠ s.reg y → t.pc = s.pc + 2#16)) ∧
    (∃ t, exec (.sneReg x y) s = .next t ∧ OnlyChanges s t (fun p => p = .pc) ∧
      (s.reg x ≠ s.reg y → t.pc = s.pc + 4#16) ∧ (s.reg x = s.reg y → t.pc = s.pc + 2#16))

/-- R109, R110: the key skips test the latch numbered by `V[x]`, clear all sixteen whatever the outcome, and fault on
a number above 15. -/
def Obligations.KeySkipsConsumeAllLatches : Prop :=
  ∀ (x : Reg) (s : State),
    HasWord (.skp x) (encodeXKk 0xE#4 x 0x9E#8) ∧ HasWord (.sknp x) (encodeXKk 0xE#4 x 0xA1#8) ∧
    (∀ k : Fin 16, (s.reg x).toNat = k.val →
      (∃ t, exec (.skp x) s = .next t ∧ (∀ j : Fin 16, t.key[j] = false) ∧
        t.pc = (if s.key[k] = true then s.pc + 4#16 else s.pc + 2#16) ∧
        OnlyChanges s t (fun p => p = .pc ∨ ∃ j, p = .key j)) ∧
      (∃ t, exec (.sknp x) s = .next t ∧ (∀ j : Fin 16, t.key[j] = false) ∧
        t.pc = (if s.key[k] = true then s.pc + 2#16 else s.pc + 4#16) ∧
        OnlyChanges s t (fun p => p = .pc ∨ ∃ j, p = .key j))) ∧
    (15 < (s.reg x).toNat → TakesFault (.skp x) s .keyIndexOutOfRange ∧ TakesFault (.sknp x) s .keyIndexOutOfRange)

/-! ### Registers and arithmetic -/

/-- R120, R121: LD Vx, kk and ADD Vx, kk; neither writes a flag. -/
def Obligations.ImmediateOpsWriteOnlyTheirRegister : Prop :=
  ∀ (x : Reg) (kk : Byte) (s : State),
    HasWord (.ldImm x kk) (encodeXKk 0x6#4 x kk) ∧ HasWord (.addImm x kk) (encodeXKk 0x7#4 x kk) ∧
    (∃ t, exec (.ldImm x kk) s = .next t ∧ t.reg x = kk ∧ t.pc = s.pc + 2#16 ∧
      OnlyChanges s t (fun p => p = .pc ∨ p = .reg x)) ∧
    (∃ t, exec (.addImm x kk) s = .next t ∧ (t.reg x).toNat = ((s.reg x).toNat + kk.toNat) % 256 ∧
      t.pc = s.pc + 2#16 ∧ OnlyChanges s t (fun p => p = .pc ∨ p = .reg x))

/-- R122 to R125: the copy and the bitwise operations; none writes a flag. -/
def Obligations.CopyAndBitwiseWriteOnlyTheirRegister : Prop :=
  ∀ (x y : Reg) (s : State),
    HasWord (.ldReg x y) (encodeXYN 0x8#4 x y 0x0#4) ∧ HasWord (.orReg x y) (encodeXYN 0x8#4 x y 0x1#4) ∧
    HasWord (.andReg x y) (encodeXYN 0x8#4 x y 0x2#4) ∧ HasWord (.xorReg x y) (encodeXYN 0x8#4 x y 0x3#4) ∧
    (∃ t, exec (.ldReg x y) s = .next t ∧ t.reg x = s.reg y ∧ t.pc = s.pc + 2#16 ∧
      OnlyChanges s t (fun p => p = .pc ∨ p = .reg x)) ∧
    (∃ t, exec (.orReg x y) s = .next t ∧ t.pc = s.pc + 2#16 ∧
      (∀ j, (t.reg x).getLsbD j = ((s.reg x).getLsbD j || (s.reg y).getLsbD j)) ∧
      OnlyChanges s t (fun p => p = .pc ∨ p = .reg x)) ∧
    (∃ t, exec (.andReg x y) s = .next t ∧ t.pc = s.pc + 2#16 ∧
      (∀ j, (t.reg x).getLsbD j = ((s.reg x).getLsbD j && (s.reg y).getLsbD j)) ∧
      OnlyChanges s t (fun p => p = .pc ∨ p = .reg x)) ∧
    (∃ t, exec (.xorReg x y) s = .next t ∧ t.pc = s.pc + 2#16 ∧
      (∀ j, (t.reg x).getLsbD j = ((s.reg x).getLsbD j ^^ (s.reg y).getLsbD j)) ∧
      OnlyChanges s t (fun p => p = .pc ∨ p = .reg x))

/-- R126: ADD Vx, Vy: the sum modulo 256, VF the carry, written last. -/
def Obligations.AddSetsCarry : Prop :=
  ∀ (x y : Reg) (s : State), HasWord (.addReg x y) (encodeXYN 0x8#4 x y 0x4#4) ∧
    ∃ t, exec (.addReg x y) s = .next t ∧ t.pc = s.pc + 2#16 ∧
      (x ≠ 15 → (t.reg x).toNat = ((s.reg x).toNat + (s.reg y).toNat) % 256) ∧
      t.reg 15 = (if 255 < (s.reg x).toNat + (s.reg y).toNat then 1#8 else 0#8) ∧
      OnlyChanges s t (fun p => p = .pc ∨ p = .reg x ∨ p = .reg 15)

/-- R127, R129: SUB and SUBN: the difference modulo 256, VF 1 iff no borrow (1 on equal operands), written last. -/
def Obligations.SubtractsSetNoBorrow : Prop :=
  ∀ (x y : Reg) (s : State),
    HasWord (.sub x y) (encodeXYN 0x8#4 x y 0x5#4) ∧ HasWord (.subn x y) (encodeXYN 0x8#4 x y 0x7#4) ∧
    (∃ t, exec (.sub x y) s = .next t ∧ t.pc = s.pc + 2#16 ∧
      (x ≠ 15 → ((t.reg x).toNat : Int) = (((s.reg x).toNat : Int) - (s.reg y).toNat) % 256) ∧
      t.reg 15 = (if (s.reg y).toNat ≤ (s.reg x).toNat then 1#8 else 0#8) ∧
      OnlyChanges s t (fun p => p = .pc ∨ p = .reg x ∨ p = .reg 15)) ∧
    (∃ t, exec (.subn x y) s = .next t ∧ t.pc = s.pc + 2#16 ∧
      (x ≠ 15 → ((t.reg x).toNat : Int) = (((s.reg y).toNat : Int) - (s.reg x).toNat) % 256) ∧
      t.reg 15 = (if (s.reg x).toNat ≤ (s.reg y).toNat then 1#8 else 0#8) ∧
      OnlyChanges s t (fun p => p = .pc ∨ p = .reg x ∨ p = .reg 15))

/-- R128, R130: the shifts act on `V[x]` whatever the field `y` is; SHR's flag is bit 0, SHL's is "above 128", which
is 0 for 128 itself. -/
def Obligations.ShiftsSetTheirFlag : Prop :=
  ∀ (x y : Reg) (s : State),
    HasWord (.shr x y) (encodeXYN 0x8#4 x y 0x6#4) ∧ HasWord (.shl x y) (encodeXYN 0x8#4 x y 0xE#4) ∧
    (∃ t, exec (.shr x y) s = .next t ∧ t.pc = s.pc + 2#16 ∧
      (x ≠ 15 → (t.reg x).toNat = (s.reg x).toNat / 2) ∧
      (t.reg 15).toNat = (s.reg x).toNat % 2 ∧
      OnlyChanges s t (fun p => p = .pc ∨ p = .reg x ∨ p = .reg 15)) ∧
    (∃ t, exec (.shl x y) s = .next t ∧ t.pc = s.pc + 2#16 ∧
      (x ≠ 15 → (t.reg x).toNat = 2 * (s.reg x).toNat % 256) ∧
      t.reg 15 = (if 128 < (s.reg x).toNat then 1#8 else 0#8) ∧
      OnlyChanges s t (fun p => p = .pc ∨ p = .reg x ∨ p = .reg 15))

/-- R11, R24: a register changes only where the instruction names it as a destination or writes it as the flag, and a
flag write leaves 0 or 1. -/
def Obligations.RegistersChangeOnlyWhereNamed : Prop :=
  ∀ (i : Instr) (s t : State), exec i s = .next t →
    (∀ r : Reg, ¬ NamesDest r i → ¬ (WritesFlag i ∧ r = 15) → t.reg r = s.reg r) ∧
    (WritesFlag i → t.status = s.status → s.status = .running → t.reg 15 = 0#8 ∨ t.reg 15 = 1#8)

/-- R132: RND masks a free byte; the byte is the model's free value (log entry 2). -/
def Obligations.RandomIsMaskedFreeByte : Prop :=
  ∀ (x : Reg) (kk : Byte) (s : State), HasWord (.rnd x kk) (encodeXKk 0xC#4 x kk) ∧
    ∃ t, exec (.rnd x kk) s = .next t ∧ t.reg x = Config.randomByte s.draws &&& kk ∧
      (∀ j, kk.getLsbD j = false → (t.reg x).getLsbD j = false) ∧ t.pc = s.pc + 2#16 ∧ t.draws = s.draws + 1 ∧
      OnlyChanges s t (fun p => p = .pc ∨ p = .reg x ∨ p = .draws)

/-! ### Index register -/

/-- R131: LD I, nnn. -/
def Obligations.LoadIndexTakesAnyAddress : Prop :=
  ∀ (nnn : Addr) (s : State), HasWord (.ldI nnn) (encodeNnn 0xA#4 nnn) ∧
    ∃ t, exec (.ldI nnn) s = .next t ∧ t.i.toNat = nnn.toNat ∧ t.pc = s.pc + 2#16 ∧
      OnlyChanges s t (fun p => p = .pc ∨ p = .index)

/-- R155: ADD I, Vx adds without wrap and without a flag, or faults when the sum passes `0xFFF`. -/
def Obligations.AddIndexSumsOrFaults : Prop :=
  ∀ (x : Reg) (s : State), HasWord (.addI x) (encodeXKk 0xF#4 x 0x1E#8) ∧
    (s.i.toNat + (s.reg x).toNat ≤ 0xFFF → ∃ t, exec (.addI x) s = .next t ∧
      t.i.toNat = s.i.toNat + (s.reg x).toNat ∧ t.pc = s.pc + 2#16 ∧
      OnlyChanges s t (fun p => p = .pc ∨ p = .index)) ∧
    (0xFFF < s.i.toNat + (s.reg x).toNat → TakesFault (.addI x) s .invalidMemoryAddress)

/-- R156: LD F, Vx, on an engine with legal parameters. -/
def Obligations.GlyphAddressUsesLowNibble : Prop :=
  ∀ (x : Reg) (s : State), s.cfg.wf = true → HasWord (.ldF x) (encodeXKk 0xF#4 x 0x29#8) ∧
    ∃ t, exec (.ldF x) s = .next t ∧ t.i.toNat = s.cfg.fontBase + 5 * ((s.reg x).toNat % 16) ∧
      t.pc = s.pc + 2#16 ∧ OnlyChanges s t (fun p => p = .pc ∨ p = .index)

/-- R22, R23, R156: where the 80 font bytes are as after reset, LD F, Vx points `I` at the five bytes of the glyph. -/
def Obligations.GlyphBytesLieWhereIndexPoints : Prop :=
  ∀ (x : Reg) (s : State), s.cfg.wf = true →
    (∀ a, s.cfg.fontBase ≤ a → a < s.cfg.fontBase + 80 → s.byteAt a = (State.resetWith s.cfg).byteAt a) →
    ∃ t, exec (.ldF x) s = .next t ∧ ∀ j < 5,
      s.cfg.fontTable[5 * ((s.reg x).toNat % 16) + j]? = some (t.byteAt (t.i.toNat + j))

/-! ### Timers and keys -/

/-- R150, R153, R154: the moves between a register and a timer. -/
def Obligations.TimerMovesCopy : Prop :=
  ∀ (x : Reg) (s : State),
    HasWord (.ldVxDt x) (encodeXKk 0xF#4 x 0x07#8) ∧ HasWord (.ldDtVx x) (encodeXKk 0xF#4 x 0x15#8) ∧
    HasWord (.ldStVx x) (encodeXKk 0xF#4 x 0x18#8) ∧
    (∃ t, exec (.ldVxDt x) s = .next t ∧ t.reg x = s.dt ∧ t.pc = s.pc + 2#16 ∧
      OnlyChanges s t (fun p => p = .pc ∨ p = .reg x)) ∧
    (∃ t, exec (.ldDtVx x) s = .next t ∧ t.dt = s.reg x ∧ t.pc = s.pc + 2#16 ∧
      OnlyChanges s t (fun p => p = .pc ∨ p = .delay)) ∧
    (∃ t, exec (.ldStVx x) s = .next t ∧ t.st = s.reg x ∧ (t.tone = true ↔ s.reg x ≠ 0#8) ∧ t.pc = s.pc + 2#16 ∧
      OnlyChanges s t (fun p => p = .pc ∨ p = .sound))

/-- R151: LD Vx, ST. Its words are `Fxb` exactly when `LD_VX_ST_LOW` is `b`, and there are none when the parameter is
absent (the nine bytes in use are excluded by the legality of the parameters, R5). -/
def Obligations.SoundTimerLoadCopies : Prop :=
  ∀ x : Reg,
    (∀ (c : Config) (w : Word), c.wf = true →
      (decodeWord c w = .ok (.ldVxSt x) ↔ ∃ b, c.ldVxStLow = some b ∧ w = encodeXKk 0xF#4 x b)) ∧
    (∀ s : State, ∃ t, exec (.ldVxSt x) s = .next t ∧ t.reg x = s.st ∧ t.pc = s.pc + 2#16 ∧
      OnlyChanges s t (fun p => p = .pc ∨ p = .reg x))

/-- R152: LD Vx, K takes the least latched key and consumes all latches; with none latched nothing changes. -/
def Obligations.KeyWaitTakesLeastKeyOrWaits : Prop :=
  ∀ (x : Reg) (s : State), HasWord (.ldVxK x) (encodeXKk 0xF#4 x 0x0A#8) ∧
    (∀ k : Fin 16, s.key[k] = true → (∀ j : Fin 16, j < k → s.key[j] = false) →
      ∃ t, exec (.ldVxK x) s = .next t ∧ (t.reg x).toNat = k.val ∧ (∀ j : Fin 16, t.key[j] = false) ∧
        t.pc = s.pc + 2#16 ∧ OnlyChanges s t (fun p => p = .pc ∨ p = .reg x ∨ ∃ j, p = .key j)) ∧
    ((∀ k : Fin 16, s.key[k] = false) → exec (.ldVxK x) s = .next s)

/-- R217: a latch is consumed by the first instruction that looks; after a key skip a wait for a key finds none. -/
def Obligations.KeyPressIsConsumedByFirstLook : Prop :=
  ∀ (x y : Reg) (s : State), (s.reg x).toNat ≤ 15 → ∀ i : Instr, i = .skp x ∨ i = .sknp x →
    ∃ t, exec i s = .next t ∧ exec (.ldVxK y) t = .next t

/-! ### Memory blocks -/

/-- R157: LD B, Vx stores three digits, or faults before any byte is written. -/
def Obligations.BcdStoresThreeDigits : Prop :=
  ∀ (x : Reg) (s : State), HasWord (.ldB x) (encodeXKk 0xF#4 x 0x33#8) ∧
    (s.i.toNat + 2 ≤ 0xFFF → ∃ t, exec (.ldB x) s = .next t ∧
      (t.byteAt s.i.toNat).toNat = (s.reg x).toNat / 100 ∧
      (t.byteAt (s.i.toNat + 1)).toNat = (s.reg x).toNat / 10 % 10 ∧
      (t.byteAt (s.i.toNat + 2)).toNat = (s.reg x).toNat % 10 ∧ t.pc = s.pc + 2#16 ∧
      OnlyChanges s t (fun p => p = .pc ∨ ∃ k < 3, p = .byte (s.i.toNat + k))) ∧
    (0xFFF < s.i.toNat + 2 → TakesFault (.ldB x) s .accessOutOfRange)

/-- R158: LD [I], Vx stores `V0..Vx`, leaves `I`, or faults before any byte is written. -/
def Obligations.BlockStoreWritesRegisters : Prop :=
  ∀ (x : Reg) (s : State), HasWord (.storeRegs x) (encodeXKk 0xF#4 x 0x55#8) ∧
    (s.i.toNat + x.val ≤ 0xFFF → ∃ t, exec (.storeRegs x) s = .next t ∧
      (∀ k : Reg, k.val ≤ x.val → t.byteAt (s.i.toNat + k.val) = s.reg k) ∧ t.pc = s.pc + 2#16 ∧
      OnlyChanges s t (fun p => p = .pc ∨ ∃ k ≤ x.val, p = .byte (s.i.toNat + k))) ∧
    (0xFFF < s.i.toNat + x.val → TakesFault (.storeRegs x) s .accessOutOfRange)

/-- R159: LD Vx, [I] loads `V0..Vx`, leaves `I`, memory and the registers above `x`, or faults before any register
is written. -/
def Obligations.BlockLoadReadsRegisters : Prop :=
  ∀ (x : Reg) (s : State), HasWord (.loadRegs x) (encodeXKk 0xF#4 x 0x65#8) ∧
    (s.i.toNat + x.val ≤ 0xFFF → ∃ t, exec (.loadRegs x) s = .next t ∧
      (∀ k : Reg, k.val ≤ x.val → t.reg k = s.byteAt (s.i.toNat + k.val)) ∧ t.pc = s.pc + 2#16 ∧
      OnlyChanges s t (fun p => p = .pc ∨ ∃ k : Reg, k.val ≤ x.val ∧ p = .reg k)) ∧
    (0xFFF < s.i.toNat + x.val → TakesFault (.loadRegs x) s .accessOutOfRange)

/-- R53: LD B and LD [I], Vx alone write memory, in the bytes the table gives, and DRW and LD Vx, [I] alone read it:
where another memory holds the same bytes in the range an instruction reads, everything but the memory comes out the
same. -/
def Obligations.OnlyFourInstructionsReachMemory : Prop :=
  (∀ (i : Instr) (s t : State) (a : Nat), exec i s = .next t → t.byteAt a ≠ s.byteAt a →
    (∃ x, i = .ldB x ∧ s.i.toNat ≤ a ∧ a ≤ s.i.toNat + 2) ∨
    (∃ x, i = .storeRegs x ∧ s.i.toNat ≤ a ∧ a ≤ s.i.toNat + x.val)) ∧
  (∀ (i : Instr) (s : State) (m : Memory), (∀ a, ReadsByte i s a → Memory.read s.cfg m a = s.byteAt a) →
    ∃ t t', exec i s = .next t ∧ exec i { s with mem := m } = .next t' ∧ { t' with mem := t.mem } = t)

/-- R52: what LD [I], Vx or LD B, Vx stores at the next instruction's address is the next word fetched. -/
def Obligations.StoreIsSeenByNextFetch : Prop :=
  ∀ (x : Reg) (s : State), s.i = s.pc + 2#16 →
    (1 ≤ x.val → s.i.toNat + x.val ≤ 0xFFF →
      ∃ t, exec (.storeRegs x) s = .next t ∧ fetchWord t = .ok (wordOfBytes (s.reg 0) (s.reg 1))) ∧
    (s.i.toNat + 2 ≤ 0xFFF → ∃ t w, exec (.ldB x) s = .next t ∧ fetchWord t = .ok w ∧
      w.toNat = (s.reg x).toNat / 100 * 256 + (s.reg x).toNat / 10 % 10)

/-! ### Display -/

/-- R141, R142, R143: DRW. Sprite pixel `(c, r)` XORs bit `7 - c` of the byte at `I + r` into the display pixel
`((V[x] + c) mod 64, (V[y] + r) mod 32)`; VF is 1 iff a set bit met a set pixel; with `n = 0` nothing is read. -/
def Obligations.DrawXorsSpriteAndReportsCollision : Prop :=
  ∀ (x y : Reg) (n : Fin 16) (s : State), HasWord (.drw x y n) (encodeXYN 0xD#4 x y (BitVec.ofFin (w := 4) n)) ∧
    (n.val = 0 ∨ s.i.toNat + n.val - 1 ≤ 0xFFF → ∃ t, exec (.drw x y n) s = .next t ∧
      (∀ r < n.val, ∀ c < 8,
        t.pixel (Fin.ofNat 64 ((s.reg x).toNat + c)) (Fin.ofNat 32 ((s.reg y).toNat + r))
          = (s.pixel (Fin.ofNat 64 ((s.reg x).toNat + c)) (Fin.ofNat 32 ((s.reg y).toNat + r))
              ^^ (s.byteAt (s.i.toNat + r)).getLsbD (7 - c))) ∧
      ((∃ r < n.val, ∃ c < 8,
          s.pixel (Fin.ofNat 64 ((s.reg x).toNat + c)) (Fin.ofNat 32 ((s.reg y).toNat + r)) = true
            ∧ (s.byteAt (s.i.toNat + r)).getLsbD (7 - c) = true) → t.reg 15 = 1#8) ∧
      ((∀ r < n.val, ∀ c < 8,
          s.pixel (Fin.ofNat 64 ((s.reg x).toNat + c)) (Fin.ofNat 32 ((s.reg y).toNat + r)) = false
            ∨ (s.byteAt (s.i.toNat + r)).getLsbD (7 - c) = false) → t.reg 15 = 0#8) ∧
      t.redraw = true ∧ t.pc = s.pc + 2#16 ∧
      OnlyChanges s t (fun p => p = .pc ∨ p = .redraw ∨ p = .reg 15 ∨
        ∃ r < n.val, ∃ c < 8,
          p = .pixel (Fin.ofNat 64 ((s.reg x).toNat + c)) (Fin.ofNat 32 ((s.reg y).toNat + r)))) ∧
    (0 < n.val → 0xFFF < s.i.toNat + n.val - 1 → TakesFault (.drw x y n) s .accessOutOfRange)

/-- R144: the pixels of one sprite land on distinct display pixels. -/
def Obligations.SpritePixelsLandApart : Prop :=
  ∀ (ox oy r r' c c' : Nat), r < 15 → r' < 15 → c < 8 → c' < 8 →
    wrapCol ox c = wrapCol ox c' → wrapRow oy r = wrapRow oy r' → c = c' ∧ r = r'

/-- R146 (i), (ii): the same draw twice restores every pixel; on the second draw VF is 1 iff a set sprite bit lands on
a pixel that is set after the first, hence, where the sprite's place was blank, iff the sprite has a set bit. -/
def Obligations.DrawTwiceRestoresDisplay : Prop :=
  ∀ (x y : Reg) (n : Fin 16) (s : State), x ≠ 15 → y ≠ 15 → (n.val = 0 ∨ s.i.toNat + n.val - 1 ≤ 0xFFF) →
    ∃ t u, exec (.drw x y n) s = .next t ∧ exec (.drw x y n) t = .next u ∧
      (∀ col row, u.pixel col row = s.pixel col row) ∧
      (u.reg 15 = 1#8 ↔ ∃ r < n.val, ∃ c < 8,
        (s.byteAt (s.i.toNat + r)).getLsbD (7 - c) = true ∧
          t.pixel (Fin.ofNat 64 ((s.reg x).toNat + c)) (Fin.ofNat 32 ((s.reg y).toNat + r)) = true) ∧
      ((∀ r < n.val, ∀ c < 8,
          s.pixel (Fin.ofNat 64 ((s.reg x).toNat + c)) (Fin.ofNat 32 ((s.reg y).toNat + r)) = false) →
        (u.reg 15 = 1#8 ↔ ∃ r < n.val, ∃ c < 8, (s.byteAt (s.i.toNat + r)).getLsbD (7 - c) = true))

/-- R17, R18: only CLS and DRW change the display or `REDRAW`, and no instruction clears `REDRAW`. -/
def Obligations.OnlyClsAndDrwTouchDisplay : Prop :=
  ∀ (i : Instr) (s t : State), exec i s = .next t →
    (i ≠ .cls → (∀ x y n, i ≠ .drw x y n) → (∀ col row, t.pixel col row = s.pixel col row) ∧ t.redraw = s.redraw) ∧
    (s.redraw = true → t.redraw = true)

/-- R14, R15, R16: only CALL and RET touch the stack, only LD DT and LD ST the timers, and no instruction sets a key
latch. -/
def Obligations.StackTimersAndLatchesHaveFewWriters : Prop :=
  ∀ (i : Instr) (s t : State), exec i s = .next t →
    (i ≠ .ret → (∀ nnn, i ≠ .call nnn) → t.sp = s.sp ∧ t.stack = s.stack) ∧
    ((∀ x, i ≠ .ldDtVx x) → t.dt = s.dt) ∧ ((∀ x, i ≠ .ldStVx x) → t.st = s.st) ∧
    (∀ k : Fin 16, t.key[k] = true → s.key[k] = true)

/-! ### What nothing reads -/

/-- R18: no instruction reads `REDRAW` and a step is not gated by it. -/
def Obligations.RedrawIsNeverRead : Prop :=
  ∀ (s : State) (b : Bool), ∃ t t', step s = .next t ∧ step { s with redraw := b } = .next t' ∧
    { t with redraw := false } = { t' with redraw := false }

/-- R14: no rule reads a stack slot at or above `SP`: two states that differ only in such slots take steps to states
that differ only in such slots. -/
def Obligations.StaleStackSlotsAreNeverRead : Prop :=
  ∀ (s : State) (other : Vector Word 16), (∀ k : Fin 16, k.val < s.sp.val → other[k] = s.stack[k]) →
    ∃ t t', step s = .next t ∧ step { s with stack := other } = .next t' ∧
      (∀ k : Fin 16, k.val < t.sp.val → t'.stack[k] = t.stack[k]) ∧ { t' with stack := t.stack } = t

/-! ### Reset, loading, and the host's events -/

/-- R23: every element of state after reset, from any state, halted or not. -/
def Obligations.ResetGivesEveryResetValue : Prop :=
  ∀ s : State, ∃ t, handle .reset s = .next t ∧
    (∀ r, t.reg r = 0#8) ∧ (s.cfg.wf = true → t.pc.toNat = s.cfg.loadAddress) ∧ t.i = 0#16 ∧ t.sp.val = 0 ∧
    (∀ k : Fin 16, t.stack[k] = 0#16) ∧ t.dt = 0#8 ∧ t.st = 0#8 ∧ (∀ k : Fin 16, t.key[k] = false) ∧
    (∀ col row, t.pixel col row = false) ∧ t.redraw = false ∧ t.status = .running ∧ t.cfg = s.cfg ∧
    (s.cfg.wf = true → ∀ j < 80, s.cfg.fontTable[j]? = some (t.byteAt (s.cfg.fontBase + j))) ∧
    (∀ a, ¬ (s.cfg.fontBase ≤ a ∧ a < s.cfg.fontBase + 80) → t.byteAt a = 0#8)

/-- R211: where a load is permitted, an image that fits is copied to `LOAD_ADDRESS` and nothing else changes but the
permission, which is used up; a longer one is refused; where no load is permitted, every image is refused. `loadable`,
which holds the permission, and the names of the refusals are the model's choice (log entry 5). -/
def Obligations.LoadCopiesImageOrRefuses : Prop :=
  ∀ (s : State) (bytes : List Byte), s.status = .running →
    (s.loadable = true → bytes.length ≤ 4096 - s.cfg.loadAddress →
      ∃ t, handle (.loadProgram bytes) s = .next t ∧ t.loadable = false ∧
        (∀ j < bytes.length, bytes[j]? = some (t.byteAt (s.cfg.loadAddress + j))) ∧
        OnlyChanges s t (fun p => p = .loadable ∨ ∃ j < bytes.length, p = .byte (s.cfg.loadAddress + j))) ∧
    (s.loadable = true → 4096 - s.cfg.loadAddress < bytes.length →
      handle (.loadProgram bytes) s = .refused .imageTooLong) ∧
    (s.loadable = false → handle (.loadProgram bytes) s = .refused .loadNotPermitted)

/-- R211, R54, U12: whatever events other than `reset` have followed a `reset`, of any engine: once one of them was a
step or a load, every further load is refused; before that, every image that fits is loaded. The name of the refusal is
the model's choice (log entry 5). -/
def Obligations.OneLoadBetweenResetAndFirstStep : Prop :=
  ∀ (s t : State) (events : List Event) (bytes : List Byte), .reset ∉ events →
    handleAll (.reset :: events) s = .next t →
    ((.step ∈ events ∨ ∃ image, .loadProgram image ∈ events) →
      handle (.loadProgram bytes) t = .refused .loadNotPermitted) ∧
    (.step ∉ events → (∀ image, .loadProgram image ∉ events) → bytes.length ≤ 4096 - s.cfg.loadAddress →
      ∃ u, handle (.loadProgram bytes) t = .next u ∧
        ∀ j < bytes.length, bytes[j]? = some (u.byteAt (s.cfg.loadAddress + j)))

/-- R54: of the host's events `reset` and `load_program` alone write memory; the others leave every byte, and a step's
writes are the instruction's. -/
def Obligations.HostWritesMemoryOnlyByLoad : Prop :=
  ∀ (s t : State) (e : Event) (a : Nat), handle e s = .next t → t.byteAt a ≠ s.byteAt a →
    e = .reset ∨ e = .step ∨
    ∃ bytes, e = .loadProgram bytes ∧ s.loadable = true ∧ s.cfg.loadAddress ≤ a ∧ a < s.cfg.loadAddress + bytes.length

/-- R187, R188, R189: the ticks, on a running engine and on a halted one. -/
def Obligations.TicksCountDownToZero : Prop :=
  ∀ s : State,
    (s.status = .running →
      (∃ t, handle .tickDelay s = .next t ∧ t.dt.toNat = s.dt.toNat - 1 ∧ OnlyChanges s t (fun p => p = .delay)) ∧
      (∃ t, handle .tickSound s = .next t ∧ t.st.toNat = s.st.toNat - 1 ∧ (t.tone = true ↔ 1 < s.st.toNat) ∧
        OnlyChanges s t (fun p => p = .sound)) ∧
      (∃ t, handle .tickTimers s = .next t ∧ t.dt.toNat = s.dt.toNat - 1 ∧ t.st.toNat = s.st.toNat - 1 ∧
        OnlyChanges s t (fun p => p = .delay ∨ p = .sound))) ∧
    (∀ f, s.status = .halted f →
      handle .tickDelay s = .next s ∧ handle .tickSound s = .next s ∧ handle .tickTimers s = .next s) ∧
    handle .tickTimers s = .next (tickSound (tickDelay s)) ∧ handle .tickTimers s = .next (tickDelay (tickSound s))

/-- R190, R191: `set_key` writes one latch, `ack_redraw` clears `REDRAW`, on a running engine. -/
def Obligations.HostWritesLatchAndAcknowledges : Prop :=
  ∀ (s : State) (k : Fin 16) (b : Bool), s.status = .running →
    (∃ t, handle (.setKey k b) s = .next t ∧ t.key[k] = b ∧ OnlyChanges s t (fun p => p = .key k)) ∧
    (∃ t, handle .ackRedraw s = .next t ∧ t.redraw = false ∧ OnlyChanges s t (fun p => p = .redraw))

/-- R196: at a jump to itself a step changes nothing at all, once a first step or a load has closed the time for a load
(the model's own record, log entry 5); a first step there changes that record alone. -/
def Obligations.SelfJumpStandsStill : Prop :=
  ∀ s : State, s.EndOfRun → step s = .next s.closeLoad ∧ (s.loadable = false → step s = .next s)

/-! ### Invariants -/

/-- R23, R24: the state after reset satisfies the invariant, for every legal choice of the parameters. -/
def Obligations.ResetSatisfiesInv : Prop :=
  State.reset.Inv ∧ ∀ c : Config, c.wf = true → (State.resetWith c).Inv

/-- R12, R13, R24: every step keeps the invariant: legal parameters, canonical memory (log entry 7), `I` inside memory,
return addresses at most `0x1000`, `pc` at most `0x10FE`, and no load permitted on a halted engine (log entry 5). -/
def Obligations.StepKeepsInv : Prop :=
  ∀ s t : State, s.Inv → step s = .next t → t.Inv

/-- R24: in every state reachable from reset by the events, the bounds hold, and a flag-writing instruction that does
not fault leaves VF 0 or 1. -/
def Obligations.ReachableStatesStayBounded : Prop :=
  ∀ s : State, Reachable s →
    s.sp.val ≤ 16 ∧ s.i.toNat ≤ 0xFFF ∧ (∀ r, (s.reg r).toNat ≤ 255) ∧ s.dt.toNat ≤ 255 ∧ s.st.toNat ≤ 255 ∧
    s.pc.toNat ≤ 0x10FE ∧
    (∀ i t, s.status = .running → fetchInstr s = .ok i → WritesFlag i → step s = .next t → t.status = .running →
      t.reg 15 = 0#8 ∨ t.reg 15 = 1#8)

/-- Over the events of R193, an invariant that is in part the model's own: the canonical form of memory (log entry 7), an
engine that may be loaded is running and a load out of its time is refused (log entry 5), and the parameters are kept in
the state, unchanged by every event (log entry 1). Legal parameters and the bounds of `I`, the slots and `pc` are those
of R12, R13 and R24. -/
def Obligations.EveryEventKeepsInv : Prop :=
  ∀ (s : State) (e : Event), s.Inv →
    (∃ t, handle e s = .next t ∧ t.Inv ∧ t.cfg = s.cfg) ∨
    (∃ bytes r, e = .loadProgram bytes ∧ handle e s = .refused r)
end

