-- ==== Sys2Proof/Laws/Decode.lean ====
section
/-! SUPPORT. The fields of assembled words, and the words of fields: decoding undoes encoding. -/

namespace Sys2Proof

/-! ### Fields of a concatenation -/

theorem extract_append_hi {n m : Nat} (a : BitVec n) (b : BitVec m) : (a ++ b).extractLsb' m n = a := by
  ext i hi
  simp [BitVec.getLsbD_append, hi]

theorem extract_append_lo {n m : Nat} (a : BitVec n) (b : BitVec m) (lo len : Nat) (h : lo + len ≤ m) :
    (a ++ b).extractLsb' lo len = b.extractLsb' lo len := by
  ext i hi
  have : lo + i < m := by omega
  simp [BitVec.getLsbD_append, this]

theorem extract_all {n : Nat} (a : BitVec n) : a.extractLsb' 0 n = a := by
  ext i hi
  simp

theorem append_extract {k n : Nat} (m : Nat) (w : BitVec k) :
    w.extractLsb' m n ++ w.extractLsb' 0 m = w.extractLsb' 0 (n + m) := by
  ext i hi
  by_cases h : i < m
  · simp [BitVec.getElem_append, h]
  · have : m + (i - m) = i := by omega
    simp [BitVec.getElem_append, h, this]

/-! ### The fields of an assembled word -/

theorem fieldOp_encodeNnn (op : BitVec 4) (nnn : Addr) : fieldOp (encodeNnn op nnn) = op :=
  extract_append_hi op nnn

theorem fieldNnn_encodeNnn (op : BitVec 4) (nnn : Addr) : fieldNnn (encodeNnn op nnn) = nnn :=
  (extract_append_lo op nnn 0 12 (by omega)).trans (extract_all nnn)

theorem fieldOp_encodeXKk (op : BitVec 4) (x : Reg) (kk : Byte) : fieldOp (encodeXKk op x kk) = op :=
  fieldOp_encodeNnn op _

theorem fieldX_encodeXKk (op : BitVec 4) (x : Reg) (kk : Byte) : fieldX (encodeXKk op x kk) = x := by
  have h : (encodeXKk op x kk).extractLsb' 8 4 = BitVec.ofFin (w := 4) x :=
    (extract_append_lo op _ 8 4 (by omega)).trans (extract_append_hi (BitVec.ofFin (w := 4) x) kk)
  simp [fieldX, h]

theorem fieldKk_encodeXKk (op : BitVec 4) (x : Reg) (kk : Byte) : fieldKk (encodeXKk op x kk) = kk :=
  (extract_append_lo op _ 0 8 (by omega)).trans
    ((extract_append_lo (BitVec.ofFin (w := 4) x) kk 0 8 (by omega)).trans (extract_all kk))

theorem fieldOp_encodeXYN (op : BitVec 4) (x y : Reg) (n : BitVec 4) : fieldOp (encodeXYN op x y n) = op :=
  fieldOp_encodeXKk op x _

theorem fieldX_encodeXYN (op : BitVec 4) (x y : Reg) (n : BitVec 4) : fieldX (encodeXYN op x y n) = x :=
  fieldX_encodeXKk op x _

theorem fieldY_encodeXYN (op : BitVec 4) (x y : Reg) (n : BitVec 4) : fieldY (encodeXYN op x y n) = y := by
  have h : (encodeXYN op x y n).extractLsb' 4 4 = BitVec.ofFin (w := 4) y :=
    (extract_append_lo op _ 4 4 (by omega)).trans
      ((extract_append_lo (BitVec.ofFin (w := 4) x) _ 4 4 (by omega)).trans
        (extract_append_hi (BitVec.ofFin (w := 4) y) n))
  simp [fieldY, h]

theorem fieldN_encodeXYN (op : BitVec 4) (x y : Reg) (n : BitVec 4) : fieldN (encodeXYN op x y n) = n :=
  (extract_append_lo op _ 0 4 (by omega)).trans
    ((extract_append_lo (BitVec.ofFin (w := 4) x) _ 0 4 (by omega)).trans
      ((extract_append_lo (BitVec.ofFin (w := 4) y) n 0 4 (by omega)).trans (extract_all n)))

/-! ### A word assembled from its own fields -/

theorem encodeNnn_fields (w : Word) : encodeNnn (fieldOp w) (fieldNnn w) = w :=
  (append_extract 12 w).trans (extract_all w)

theorem fieldNnn_split (w : Word) : BitVec.ofFin (w := 4) (fieldX w) ++ fieldKk w = fieldNnn w :=
  append_extract 8 w

theorem fieldKk_split (w : Word) : BitVec.ofFin (w := 4) (fieldY w) ++ fieldN w = fieldKk w :=
  append_extract 4 w

theorem encodeXKk_fields (w : Word) : encodeXKk (fieldOp w) (fieldX w) (fieldKk w) = w := by
  rw [encodeXKk, fieldNnn_split, encodeNnn_fields]

theorem encodeXYN_fields (w : Word) : encodeXYN (fieldOp w) (fieldX w) (fieldY w) (fieldN w) = w := by
  rw [encodeXYN, fieldKk_split, encodeXKk_fields]

/-! ### The masks of the opcode table (R66) -/

theorem and_append {n m : Nat} (a b : BitVec n) (c d : BitVec m) : (a ++ c) &&& (b ++ d) = (a &&& b) ++ (c &&& d) := by
  ext i hi
  by_cases h : i < m <;> simp [BitVec.getElem_append, h]

theorem append_inj {n m : Nat} (a b : BitVec n) (c d : BitVec m) : a ++ c = b ++ d ↔ a = b ∧ c = d := by
  constructor
  · intro h
    have h1 := congrArg (fun z => z.extractLsb' m n) h
    have h2 := congrArg (fun z => z.extractLsb' 0 m) h
    simp only [extract_append_hi] at h1
    simp only [extract_append_lo a c 0 m (by omega), extract_append_lo b d 0 m (by omega), extract_all] at h2
    exact ⟨h1, h2⟩
  · rintro ⟨rfl, rfl⟩; rfl

theorem and_ones4 (a : BitVec 4) : a &&& 0xF#4 = a := BitVec.and_allOnes

theorem and_ones8 (a : BitVec 8) : a &&& 0xFF#8 = a := BitVec.and_allOnes

/-- The mask `0xF000` of R66 compares the primary opcode. -/
theorem mask_op (w : Word) (op : BitVec 4) : w &&& 0xF000#16 = encodeNnn op 0#12 ↔ fieldOp w = op := by
  have : w &&& 0xF000#16 = encodeNnn (fieldOp w) 0#12 := by
    conv => lhs; rw [← encodeNnn_fields w]
    exact (and_append (fieldOp w) 0xF#4 (fieldNnn w) 0#12).trans (by rw [and_ones4]; simp [encodeNnn])
  rw [this]
  exact (append_inj _ _ _ _).trans (by simp)

/-- The mask `0xF0FF` of R66 compares the primary opcode and the low byte. -/
theorem mask_op_kk (w : Word) (op : BitVec 4) (kk : Byte) :
    w &&& 0xF0FF#16 = encodeXKk op 0 kk ↔ fieldOp w = op ∧ fieldKk w = kk := by
  have : w &&& 0xF0FF#16 = encodeXKk (fieldOp w) 0 (fieldKk w) := by
    conv => lhs; rw [← encodeXKk_fields w]
    refine (and_append (fieldOp w) 0xF#4 _ 0x0FF#12).trans ?_
    have h := and_append (BitVec.ofFin (w := 4) (fieldX w)) 0#4 (fieldKk w) 0xFF#8
    simp only [encodeXKk, encodeNnn]
    have e : (0x0FF#12) = 0#4 ++ 0xFF#8 := rfl
    rw [e, h]
    rw [and_ones4, and_ones8]
    simp
  rw [this]
  refine (append_inj _ _ _ _).trans (and_congr_right fun _ => ?_)
  exact (append_inj _ _ _ _).trans (by simp)

/-- The mask `0xF00F` of R66 compares the primary opcode and the trailing nibble. -/
theorem mask_op_n (w : Word) (op n : BitVec 4) :
    w &&& 0xF00F#16 = encodeXYN op 0 0 n ↔ fieldOp w = op ∧ fieldN w = n := by
  have : w &&& 0xF00F#16 = encodeXYN (fieldOp w) 0 0 (fieldN w) := by
    conv => lhs; rw [← encodeXYN_fields w]
    refine (and_append (fieldOp w) 0xF#4 _ 0x00F#12).trans ?_
    have h := and_append (BitVec.ofFin (w := 4) (fieldX w)) 0#4 (BitVec.ofFin (w := 4) (fieldY w) ++ fieldN w) 0x0F#8
    have h' := and_append (BitVec.ofFin (w := 4) (fieldY w)) 0#4 (fieldN w) 0xF#4
    simp only [encodeXYN, encodeXKk, encodeNnn]
    have e : (0x00F#12) = 0#4 ++ 0x0F#8 := rfl
    have e' : (0x0F#8) = 0#4 ++ 0xF#4 := rfl
    rw [e, h, e', h']
    rw [and_ones4, and_ones4]
    simp
  rw [this]
  refine (append_inj _ _ _ _).trans (and_congr_right fun _ => ?_)
  refine (append_inj _ _ _ _).trans ?_
  exact (and_congr_right fun _ => append_inj _ _ _ _).trans (by simp)

/-! ### Decoding an assembled word -/

theorem decodeWord_encodeNnn (c : Config) (op : BitVec 4) (nnn : Addr) :
    decodeWord c (encodeNnn op nnn)
      = decodeFields c op (fieldX (encodeNnn op nnn)) (fieldY (encodeNnn op nnn)) (fieldN (encodeNnn op nnn))
          (fieldKk (encodeNnn op nnn)) nnn := by
  simp only [decodeWord, fieldOp_encodeNnn, fieldNnn_encodeNnn]

theorem decodeWord_encodeXKk (c : Config) (op : BitVec 4) (x : Reg) (kk : Byte) :
    decodeWord c (encodeXKk op x kk)
      = decodeFields c op x (fieldY (encodeXKk op x kk)) (fieldN (encodeXKk op x kk)) kk
          (fieldNnn (encodeXKk op x kk)) := by
  simp only [decodeWord, fieldOp_encodeXKk, fieldX_encodeXKk, fieldKk_encodeXKk]

theorem decodeWord_encodeXYN (c : Config) (op : BitVec 4) (x y : Reg) (n : BitVec 4) :
    decodeWord c (encodeXYN op x y n)
      = decodeFields c op x y n (fieldKk (encodeXYN op x y n)) (fieldNnn (encodeXYN op x y n)) := by
  simp only [decodeWord, fieldOp_encodeXYN, fieldX_encodeXYN, fieldY_encodeXYN, fieldN_encodeXYN]

/-- The word of its two bytes in memory order is the word. -/
theorem wordOfBytes_bytesOfWord (w : Word) : wordOfBytes (w.extractLsb' 8 8) (w.extractLsb' 0 8) = w :=
  (append_extract 8 w).trans (extract_all w)

/-- `LD_VX_ST_LOW`, when the parameters are legal, is none of the low bytes in use (R5). -/
theorem Config.ldVxStLow_fresh (c : Config) (h : c.wf = true) (b : Byte) (hb : c.ldVxStLow = some b) :
    b ∉ Config.usedLowBytes := by
  simp only [Config.wf, hb, Bool.and_eq_true, Bool.not_eq_true', List.contains_eq_mem, decide_eq_false_iff_not] at h
  exact h.2

/-- What legal parameters satisfy (R2, R3, R4). -/
theorem Config.wf_bounds (c : Config) (h : c.wf = true) :
    c.loadAddress % 2 = 0 ∧ c.fontBase + 80 ≤ c.loadAddress ∧ c.loadAddress + 2 ≤ 4096 ∧ c.fontTable.length = 80 := by
  simp only [Config.wf, Bool.and_eq_true, beq_iff_eq, decide_eq_true_eq] at h
  exact ⟨h.1.1.1.1, h.1.1.1.2, h.1.1.2, h.1.2⟩

end Sys2Proof
end

