-- ==== Sys2Proof/Laws/State.lean ====
section
/-! SUPPORT. One lemma for each field of State and each named update, true by rfl: what the update leaves there. No later
proof unfolds a record update. -/

namespace Sys2Proof.Machine

/-! ### setReg -/

@[simp] theorem State.setReg_v (s : State) (r : Reg) (b : Byte) : (s.setReg r b).v = s.v.set r b := rfl
@[simp] theorem State.setReg_pc (s : State) (r : Reg) (b : Byte) : (s.setReg r b).pc = s.pc := rfl
@[simp] theorem State.setReg_i (s : State) (r : Reg) (b : Byte) : (s.setReg r b).i = s.i := rfl
@[simp] theorem State.setReg_stack (s : State) (r : Reg) (b : Byte) : (s.setReg r b).stack = s.stack := rfl
@[simp] theorem State.setReg_sp (s : State) (r : Reg) (b : Byte) : (s.setReg r b).sp = s.sp := rfl
@[simp] theorem State.setReg_dt (s : State) (r : Reg) (b : Byte) : (s.setReg r b).dt = s.dt := rfl
@[simp] theorem State.setReg_st (s : State) (r : Reg) (b : Byte) : (s.setReg r b).st = s.st := rfl
@[simp] theorem State.setReg_key (s : State) (r : Reg) (b : Byte) : (s.setReg r b).key = s.key := rfl
@[simp] theorem State.setReg_pix (s : State) (r : Reg) (b : Byte) : (s.setReg r b).pix = s.pix := rfl
@[simp] theorem State.setReg_redraw (s : State) (r : Reg) (b : Byte) : (s.setReg r b).redraw = s.redraw := rfl
@[simp] theorem State.setReg_status (s : State) (r : Reg) (b : Byte) : (s.setReg r b).status = s.status := rfl
@[simp] theorem State.setReg_mem (s : State) (r : Reg) (b : Byte) : (s.setReg r b).mem = s.mem := rfl
@[simp] theorem State.setReg_draws (s : State) (r : Reg) (b : Byte) : (s.setReg r b).draws = s.draws := rfl
@[simp] theorem State.setReg_cfg (s : State) (r : Reg) (b : Byte) : (s.setReg r b).cfg = s.cfg := rfl
@[simp] theorem State.setReg_loadable (s : State) (r : Reg) (b : Byte) : (s.setReg r b).loadable = s.loadable := rfl

/-! ### advance -/

@[simp] theorem State.advance_v (s : State) : (s.advance).v = s.v := rfl
@[simp] theorem State.advance_pc (s : State) : (s.advance).pc = s.pc + 2#16 := rfl
@[simp] theorem State.advance_i (s : State) : (s.advance).i = s.i := rfl
@[simp] theorem State.advance_stack (s : State) : (s.advance).stack = s.stack := rfl
@[simp] theorem State.advance_sp (s : State) : (s.advance).sp = s.sp := rfl
@[simp] theorem State.advance_dt (s : State) : (s.advance).dt = s.dt := rfl
@[simp] theorem State.advance_st (s : State) : (s.advance).st = s.st := rfl
@[simp] theorem State.advance_key (s : State) : (s.advance).key = s.key := rfl
@[simp] theorem State.advance_pix (s : State) : (s.advance).pix = s.pix := rfl
@[simp] theorem State.advance_redraw (s : State) : (s.advance).redraw = s.redraw := rfl
@[simp] theorem State.advance_status (s : State) : (s.advance).status = s.status := rfl
@[simp] theorem State.advance_mem (s : State) : (s.advance).mem = s.mem := rfl
@[simp] theorem State.advance_draws (s : State) : (s.advance).draws = s.draws := rfl
@[simp] theorem State.advance_cfg (s : State) : (s.advance).cfg = s.cfg := rfl
@[simp] theorem State.advance_loadable (s : State) : (s.advance).loadable = s.loadable := rfl

/-! ### jumpTo -/

@[simp] theorem State.jumpTo_v (s : State) (w : Word) : (s.jumpTo w).v = s.v := rfl
@[simp] theorem State.jumpTo_pc (s : State) (w : Word) : (s.jumpTo w).pc = w := rfl
@[simp] theorem State.jumpTo_i (s : State) (w : Word) : (s.jumpTo w).i = s.i := rfl
@[simp] theorem State.jumpTo_stack (s : State) (w : Word) : (s.jumpTo w).stack = s.stack := rfl
@[simp] theorem State.jumpTo_sp (s : State) (w : Word) : (s.jumpTo w).sp = s.sp := rfl
@[simp] theorem State.jumpTo_dt (s : State) (w : Word) : (s.jumpTo w).dt = s.dt := rfl
@[simp] theorem State.jumpTo_st (s : State) (w : Word) : (s.jumpTo w).st = s.st := rfl
@[simp] theorem State.jumpTo_key (s : State) (w : Word) : (s.jumpTo w).key = s.key := rfl
@[simp] theorem State.jumpTo_pix (s : State) (w : Word) : (s.jumpTo w).pix = s.pix := rfl
@[simp] theorem State.jumpTo_redraw (s : State) (w : Word) : (s.jumpTo w).redraw = s.redraw := rfl
@[simp] theorem State.jumpTo_status (s : State) (w : Word) : (s.jumpTo w).status = s.status := rfl
@[simp] theorem State.jumpTo_mem (s : State) (w : Word) : (s.jumpTo w).mem = s.mem := rfl
@[simp] theorem State.jumpTo_draws (s : State) (w : Word) : (s.jumpTo w).draws = s.draws := rfl
@[simp] theorem State.jumpTo_cfg (s : State) (w : Word) : (s.jumpTo w).cfg = s.cfg := rfl
@[simp] theorem State.jumpTo_loadable (s : State) (w : Word) : (s.jumpTo w).loadable = s.loadable := rfl

/-! ### skipIf -/

@[simp] theorem State.skipIf_v (s : State) (c : Bool) : (s.skipIf c).v = s.v := rfl
@[simp] theorem State.skipIf_pc (s : State) (c : Bool) : (s.skipIf c).pc = if c then s.pc + 4#16 else s.pc + 2#16 := rfl
@[simp] theorem State.skipIf_i (s : State) (c : Bool) : (s.skipIf c).i = s.i := rfl
@[simp] theorem State.skipIf_stack (s : State) (c : Bool) : (s.skipIf c).stack = s.stack := rfl
@[simp] theorem State.skipIf_sp (s : State) (c : Bool) : (s.skipIf c).sp = s.sp := rfl
@[simp] theorem State.skipIf_dt (s : State) (c : Bool) : (s.skipIf c).dt = s.dt := rfl
@[simp] theorem State.skipIf_st (s : State) (c : Bool) : (s.skipIf c).st = s.st := rfl
@[simp] theorem State.skipIf_key (s : State) (c : Bool) : (s.skipIf c).key = s.key := rfl
@[simp] theorem State.skipIf_pix (s : State) (c : Bool) : (s.skipIf c).pix = s.pix := rfl
@[simp] theorem State.skipIf_redraw (s : State) (c : Bool) : (s.skipIf c).redraw = s.redraw := rfl
@[simp] theorem State.skipIf_status (s : State) (c : Bool) : (s.skipIf c).status = s.status := rfl
@[simp] theorem State.skipIf_mem (s : State) (c : Bool) : (s.skipIf c).mem = s.mem := rfl
@[simp] theorem State.skipIf_draws (s : State) (c : Bool) : (s.skipIf c).draws = s.draws := rfl
@[simp] theorem State.skipIf_cfg (s : State) (c : Bool) : (s.skipIf c).cfg = s.cfg := rfl
@[simp] theorem State.skipIf_loadable (s : State) (c : Bool) : (s.skipIf c).loadable = s.loadable := rfl

/-! ### clearKeys -/

@[simp] theorem State.clearKeys_v (s : State) : (s.clearKeys).v = s.v := rfl
@[simp] theorem State.clearKeys_pc (s : State) : (s.clearKeys).pc = s.pc := rfl
@[simp] theorem State.clearKeys_i (s : State) : (s.clearKeys).i = s.i := rfl
@[simp] theorem State.clearKeys_stack (s : State) : (s.clearKeys).stack = s.stack := rfl
@[simp] theorem State.clearKeys_sp (s : State) : (s.clearKeys).sp = s.sp := rfl
@[simp] theorem State.clearKeys_dt (s : State) : (s.clearKeys).dt = s.dt := rfl
@[simp] theorem State.clearKeys_st (s : State) : (s.clearKeys).st = s.st := rfl
@[simp] theorem State.clearKeys_key (s : State) : (s.clearKeys).key = Vector.replicate 16 false := rfl
@[simp] theorem State.clearKeys_pix (s : State) : (s.clearKeys).pix = s.pix := rfl
@[simp] theorem State.clearKeys_redraw (s : State) : (s.clearKeys).redraw = s.redraw := rfl
@[simp] theorem State.clearKeys_status (s : State) : (s.clearKeys).status = s.status := rfl
@[simp] theorem State.clearKeys_mem (s : State) : (s.clearKeys).mem = s.mem := rfl
@[simp] theorem State.clearKeys_draws (s : State) : (s.clearKeys).draws = s.draws := rfl
@[simp] theorem State.clearKeys_cfg (s : State) : (s.clearKeys).cfg = s.cfg := rfl
@[simp] theorem State.clearKeys_loadable (s : State) : (s.clearKeys).loadable = s.loadable := rfl

/-! ### setRegThenFlag -/

@[simp] theorem State.setRegThenFlag_v (s : State) (x : Reg) (b f : Byte) : (s.setRegThenFlag x b f).v = (s.v.set x b).set regVF f := rfl
@[simp] theorem State.setRegThenFlag_pc (s : State) (x : Reg) (b f : Byte) : (s.setRegThenFlag x b f).pc = s.pc := rfl
@[simp] theorem State.setRegThenFlag_i (s : State) (x : Reg) (b f : Byte) : (s.setRegThenFlag x b f).i = s.i := rfl
@[simp] theorem State.setRegThenFlag_stack (s : State) (x : Reg) (b f : Byte) : (s.setRegThenFlag x b f).stack = s.stack := rfl
@[simp] theorem State.setRegThenFlag_sp (s : State) (x : Reg) (b f : Byte) : (s.setRegThenFlag x b f).sp = s.sp := rfl
@[simp] theorem State.setRegThenFlag_dt (s : State) (x : Reg) (b f : Byte) : (s.setRegThenFlag x b f).dt = s.dt := rfl
@[simp] theorem State.setRegThenFlag_st (s : State) (x : Reg) (b f : Byte) : (s.setRegThenFlag x b f).st = s.st := rfl
@[simp] theorem State.setRegThenFlag_key (s : State) (x : Reg) (b f : Byte) : (s.setRegThenFlag x b f).key = s.key := rfl
@[simp] theorem State.setRegThenFlag_pix (s : State) (x : Reg) (b f : Byte) : (s.setRegThenFlag x b f).pix = s.pix := rfl
@[simp] theorem State.setRegThenFlag_redraw (s : State) (x : Reg) (b f : Byte) : (s.setRegThenFlag x b f).redraw = s.redraw := rfl
@[simp] theorem State.setRegThenFlag_status (s : State) (x : Reg) (b f : Byte) : (s.setRegThenFlag x b f).status = s.status := rfl
@[simp] theorem State.setRegThenFlag_mem (s : State) (x : Reg) (b f : Byte) : (s.setRegThenFlag x b f).mem = s.mem := rfl
@[simp] theorem State.setRegThenFlag_draws (s : State) (x : Reg) (b f : Byte) : (s.setRegThenFlag x b f).draws = s.draws := rfl
@[simp] theorem State.setRegThenFlag_cfg (s : State) (x : Reg) (b f : Byte) : (s.setRegThenFlag x b f).cfg = s.cfg := rfl
@[simp] theorem State.setRegThenFlag_loadable (s : State) (x : Reg) (b f : Byte) : (s.setRegThenFlag x b f).loadable = s.loadable := rfl

/-! ### closeLoad -/

@[simp] theorem State.closeLoad_v (s : State) : (s.closeLoad).v = s.v := rfl
@[simp] theorem State.closeLoad_pc (s : State) : (s.closeLoad).pc = s.pc := rfl
@[simp] theorem State.closeLoad_i (s : State) : (s.closeLoad).i = s.i := rfl
@[simp] theorem State.closeLoad_stack (s : State) : (s.closeLoad).stack = s.stack := rfl
@[simp] theorem State.closeLoad_sp (s : State) : (s.closeLoad).sp = s.sp := rfl
@[simp] theorem State.closeLoad_dt (s : State) : (s.closeLoad).dt = s.dt := rfl
@[simp] theorem State.closeLoad_st (s : State) : (s.closeLoad).st = s.st := rfl
@[simp] theorem State.closeLoad_key (s : State) : (s.closeLoad).key = s.key := rfl
@[simp] theorem State.closeLoad_pix (s : State) : (s.closeLoad).pix = s.pix := rfl
@[simp] theorem State.closeLoad_redraw (s : State) : (s.closeLoad).redraw = s.redraw := rfl
@[simp] theorem State.closeLoad_status (s : State) : (s.closeLoad).status = s.status := rfl
@[simp] theorem State.closeLoad_mem (s : State) : (s.closeLoad).mem = s.mem := rfl
@[simp] theorem State.closeLoad_draws (s : State) : (s.closeLoad).draws = s.draws := rfl
@[simp] theorem State.closeLoad_cfg (s : State) : (s.closeLoad).cfg = s.cfg := rfl
@[simp] theorem State.closeLoad_loadable (s : State) : (s.closeLoad).loadable = false := rfl

/-! ### resetWith -/

@[simp] theorem State.resetWith_v (c : Config) : (State.resetWith c).v = Vector.replicate 16 0#8 := rfl
@[simp] theorem State.resetWith_pc (c : Config) : (State.resetWith c).pc = BitVec.ofNat 16 c.loadAddress := rfl
@[simp] theorem State.resetWith_i (c : Config) : (State.resetWith c).i = 0#16 := rfl
@[simp] theorem State.resetWith_stack (c : Config) : (State.resetWith c).stack = Vector.replicate 16 0#16 := rfl
@[simp] theorem State.resetWith_sp (c : Config) : (State.resetWith c).sp = 0 := rfl
@[simp] theorem State.resetWith_dt (c : Config) : (State.resetWith c).dt = 0#8 := rfl
@[simp] theorem State.resetWith_st (c : Config) : (State.resetWith c).st = 0#8 := rfl
@[simp] theorem State.resetWith_key (c : Config) : (State.resetWith c).key = Vector.replicate 16 false := rfl
@[simp] theorem State.resetWith_pix (c : Config) : (State.resetWith c).pix = blankDisplay := rfl
@[simp] theorem State.resetWith_redraw (c : Config) : (State.resetWith c).redraw = false := rfl
@[simp] theorem State.resetWith_status (c : Config) : (State.resetWith c).status = .running := rfl
@[simp] theorem State.resetWith_mem (c : Config) : (State.resetWith c).mem = [] := rfl
@[simp] theorem State.resetWith_draws (c : Config) : (State.resetWith c).draws = 0 := rfl
@[simp] theorem State.resetWith_cfg (c : Config) : (State.resetWith c).cfg = c := rfl
@[simp] theorem State.resetWith_loadable (c : Config) : (State.resetWith c).loadable = true := rfl

/-! ### Accessors under updates that do not touch what they read -/

@[simp] theorem State.reg_advance (s : State) (q : Reg) : (s.advance).reg q = s.reg q := rfl
@[simp] theorem State.reg_jumpTo (s : State) (w : Word) (q : Reg) : (s.jumpTo w).reg q = s.reg q := rfl
@[simp] theorem State.reg_skipIf (s : State) (c : Bool) (q : Reg) : (s.skipIf c).reg q = s.reg q := rfl
@[simp] theorem State.reg_clearKeys (s : State) (q : Reg) : (s.clearKeys).reg q = s.reg q := rfl
@[simp] theorem State.byteAt_setReg (s : State) (r : Reg) (b : Byte) (a : Nat) : (s.setReg r b).byteAt a = s.byteAt a := rfl
@[simp] theorem State.byteAt_advance (s : State) (a : Nat) : (s.advance).byteAt a = s.byteAt a := rfl
@[simp] theorem State.byteAt_jumpTo (s : State) (w : Word) (a : Nat) : (s.jumpTo w).byteAt a = s.byteAt a := rfl
@[simp] theorem State.byteAt_skipIf (s : State) (c : Bool) (a : Nat) : (s.skipIf c).byteAt a = s.byteAt a := rfl
@[simp] theorem State.byteAt_clearKeys (s : State) (a : Nat) : (s.clearKeys).byteAt a = s.byteAt a := rfl
@[simp] theorem State.byteAt_setRegThenFlag (s : State) (x : Reg) (b f : Byte) (a : Nat) : (s.setRegThenFlag x b f).byteAt a = s.byteAt a := rfl
@[simp] theorem State.pixel_setReg (s : State) (r : Reg) (b : Byte) (col : Fin 64) (row : Fin 32) : (s.setReg r b).pixel col row = s.pixel col row := rfl
@[simp] theorem State.pixel_advance (s : State) (col : Fin 64) (row : Fin 32) : (s.advance).pixel col row = s.pixel col row := rfl
@[simp] theorem State.pixel_jumpTo (s : State) (w : Word) (col : Fin 64) (row : Fin 32) : (s.jumpTo w).pixel col row = s.pixel col row := rfl
@[simp] theorem State.pixel_skipIf (s : State) (c : Bool) (col : Fin 64) (row : Fin 32) : (s.skipIf c).pixel col row = s.pixel col row := rfl
@[simp] theorem State.pixel_clearKeys (s : State) (col : Fin 64) (row : Fin 32) : (s.clearKeys).pixel col row = s.pixel col row := rfl
@[simp] theorem State.pixel_setRegThenFlag (s : State) (x : Reg) (b f : Byte) (col : Fin 64) (row : Fin 32) : (s.setRegThenFlag x b f).pixel col row = s.pixel col row := rfl
@[simp] theorem State.keyAt_setReg (s : State) (r : Reg) (b : Byte) (k : Nat) : (s.setReg r b).keyAt k = s.keyAt k := rfl
@[simp] theorem State.keyAt_advance (s : State) (k : Nat) : (s.advance).keyAt k = s.keyAt k := rfl
@[simp] theorem State.keyAt_jumpTo (s : State) (w : Word) (k : Nat) : (s.jumpTo w).keyAt k = s.keyAt k := rfl
@[simp] theorem State.keyAt_skipIf (s : State) (c : Bool) (k : Nat) : (s.skipIf c).keyAt k = s.keyAt k := rfl
@[simp] theorem State.keyAt_setRegThenFlag (s : State) (x : Reg) (b f : Byte) (k : Nat) : (s.setRegThenFlag x b f).keyAt k = s.keyAt k := rfl
@[simp] theorem State.reg_closeLoad (s : State) (q : Reg) : (s.closeLoad).reg q = s.reg q := rfl
@[simp] theorem State.byteAt_closeLoad (s : State) (a : Nat) : (s.closeLoad).byteAt a = s.byteAt a := rfl
@[simp] theorem State.pixel_closeLoad (s : State) (col : Fin 64) (row : Fin 32) : (s.closeLoad).pixel col row = s.pixel col row := rfl
@[simp] theorem State.keyAt_closeLoad (s : State) (k : Nat) : (s.closeLoad).keyAt k = s.keyAt k := rfl

end Sys2Proof.Machine
end

