-- ==== Sys2Proof/Laws/Display.lean ====
section
/-! SUPPORT. The laws of the framebuffer and of the sprite compositor (spec 42_display.md R143, R144): which pixels a
draw changes, and when it collides. -/

namespace Sys2Proof.Machine

theorem getPixel_setPixel (d : Display) (col col' : Fin 64) (row row' : Fin 32) (b : Bool) :
    getPixel (setPixel d col row b) col' row'
      = if col' = col ∧ row' = row then b else getPixel d col' row' := by
  simp only [getPixel, setPixel, Fin.getElem_fin, Vector.getElem_set]
  by_cases hr : row.val = row'.val
  · have hr' : row' = row := Fin.ext hr.symm
    subst hr'
    simp only [if_true, Vector.getElem_set]
    by_cases hc : col.val = col'.val
    · have hc' : col' = col := Fin.ext hc.symm
      simp [hc']
    · have hc' : ¬ col' = col := fun e => hc (by rw [e])
      simp [hc, hc']
  · have hr' : ¬ row' = row := fun e => hr (by rw [e])
    simp [hr, hr']

@[simp] theorem getPixel_blankDisplay (col : Fin 64) (row : Fin 32) : getPixel blankDisplay col row = false := by
  simp [getPixel, blankDisplay]

theorem display_ext {d e : Display} (h : ∀ col row, getPixel d col row = getPixel e col row) : d = e := by
  apply Vector.ext
  intro r hr
  apply Vector.ext
  intro c hc
  exact h ⟨c, hc⟩ ⟨r, hr⟩

theorem wrapCol_inj (ox c c' : Nat) (hc : c < 8) (hc' : c' < 8) (h : wrapCol ox c = wrapCol ox c') : c = c' := by
  have := congrArg Fin.val h
  simp only [wrapCol, Fin.val_ofNat] at this
  omega

theorem wrapRow_inj (oy r r' : Nat) (h : wrapRow oy r = wrapRow oy r') (hr : r < r' + 32) (hr' : r' < r + 32) :
    r = r' := by
  have := congrArg Fin.val h
  simp only [wrapRow, Fin.val_ofNat] at this
  omega

/-- The first `n` columns of a sprite row. -/
def drawCols (ox : Nat) (row : Fin 32) (b : Byte) (n : Nat) (acc : Display × Bool) : Display × Bool :=
  (List.range n).foldl (fun acc c => drawPixel (wrapCol ox c) row (spriteBit b c) acc) acc

theorem drawRow_eq (ox : Nat) (row : Fin 32) (b : Byte) (acc : Display × Bool) :
    drawRow ox row b acc = drawCols ox row b 8 acc := rfl

theorem drawCols_succ (ox : Nat) (row : Fin 32) (b : Byte) (n : Nat) (acc : Display × Bool) :
    drawCols ox row b (n + 1) acc
      = drawPixel (wrapCol ox n) row (spriteBit b n) (drawCols ox row b n acc) := by
  simp [drawCols, List.range_succ]

theorem drawCols_other (ox : Nat) (row : Fin 32) (b : Byte) (n : Nat) (acc : Display × Bool) (col : Fin 64)
    (row' : Fin 32) (h : ∀ c < n, ¬ (col = wrapCol ox c ∧ row' = row)) :
    getPixel (drawCols ox row b n acc).1 col row' = getPixel acc.1 col row' := by
  induction n with
  | zero => rfl
  | succ n ih =>
    rw [drawCols_succ]
    simp only [drawPixel, getPixel_setPixel, h n (by omega), if_false]
    exact ih (fun c hc => h c (by omega))

theorem drawCols_pixel (ox : Nat) (row : Fin 32) (b : Byte) (n : Nat) (acc : Display × Bool) (hn : n ≤ 8)
    (c : Nat) (hc : c < n) :
    getPixel (drawCols ox row b n acc).1 (wrapCol ox c) row
      = (getPixel acc.1 (wrapCol ox c) row ^^ spriteBit b c) := by
  induction n with
  | zero => omega
  | succ n ih =>
    rw [drawCols_succ]
    by_cases hcn : c = n
    · subst hcn
      simp only [drawPixel, getPixel_setPixel, and_self, if_true]
      rw [drawCols_other]
      intro c' hc' e
      have := wrapCol_inj ox c c' (by omega) (by omega) e.1
      omega
    · have hne : ¬ wrapCol ox c = wrapCol ox n := fun e =>
        hcn (wrapCol_inj ox c n (by omega) (by omega) e)
      simp only [drawPixel, getPixel_setPixel, hne, false_and, if_false]
      exact ih (by omega) (by omega)

theorem drawCols_hit (ox : Nat) (row : Fin 32) (b : Byte) (n : Nat) (acc : Display × Bool) (hn : n ≤ 8) :
    (drawCols ox row b n acc).2 = true ↔
      acc.2 = true ∨ ∃ c < n, getPixel acc.1 (wrapCol ox c) row = true ∧ spriteBit b c = true := by
  induction n with
  | zero => simp [drawCols]
  | succ n ih =>
    have hold : getPixel (drawCols ox row b n acc).1 (wrapCol ox n) row = getPixel acc.1 (wrapCol ox n) row := by
      apply drawCols_other
      intro c hc e
      have := wrapCol_inj ox n c (by omega) (by omega) e.1
      omega
    rw [drawCols_succ]
    simp only [drawPixel, Bool.or_eq_true, Bool.and_eq_true, ih (by omega), hold]
    constructor
    · rintro ((h | ⟨c, hc, h⟩) | h)
      · exact .inl h
      · exact .inr ⟨c, by omega, h⟩
      · exact .inr ⟨n, by omega, h⟩
    · rintro (h | ⟨c, hc, h⟩)
      · exact .inl (.inl h)
      · by_cases hcn : c = n
        · subst hcn
          exact .inr h
        · exact .inl (.inr ⟨c, by omega, h⟩)

theorem drawRows_other (ox oy : Nat) (bytes : List Byte) (r : Nat) (acc : Display × Bool) (col : Fin 64)
    (row : Fin 32) (h : ∀ k < bytes.length, ∀ c < 8, ¬ (col = wrapCol ox c ∧ row = wrapRow oy (r + k))) :
    getPixel (drawRows ox oy r bytes acc).1 col row = getPixel acc.1 col row := by
  induction bytes generalizing r acc with
  | nil => rfl
  | cons b rest ih =>
    simp only [drawRows]
    rw [ih (r + 1)]
    · rw [drawRow_eq, drawCols_other]
      intro c hc
      simpa using h 0 (by simp) c hc
    · intro k hk c hc
      have := h (k + 1) (by simpa using hk) c hc
      rwa [show r + 1 + k = r + (k + 1) by omega]

theorem drawRows_pixel (ox oy : Nat) (bytes : List Byte) (r : Nat) (acc : Display × Bool)
    (hlen : bytes.length ≤ 32) (k : Nat) (hk : k < bytes.length) (c : Nat) (hc : c < 8) :
    getPixel (drawRows ox oy r bytes acc).1 (wrapCol ox c) (wrapRow oy (r + k))
      = (getPixel acc.1 (wrapCol ox c) (wrapRow oy (r + k)) ^^ spriteBit (bytes.getD k 0#8) c) := by
  induction bytes generalizing r acc k with
  | nil => simp at hk
  | cons b rest ih =>
    simp only [List.length_cons] at hlen hk
    simp only [drawRows]
    cases k with
    | zero =>
      rw [drawRows_other]
      · simp only [Nat.add_zero, drawRow_eq, List.getD_cons_zero]
        exact drawCols_pixel ox _ b 8 acc (by omega) c hc
      · intro k' hk' c' _ e
        have := wrapRow_inj oy (r + 0) (r + 1 + k') e.2 (by omega) (by omega)
        omega
    | succ k =>
      have hne : ∀ c' < 8, ¬ (wrapCol ox c = wrapCol ox c' ∧ wrapRow oy (r + (k + 1)) = wrapRow oy r) := by
        intro c' _ e
        have := wrapRow_inj oy (r + (k + 1)) r e.2 (by omega) (by omega)
        omega
      have hk2 := ih (r + 1) (drawRow ox (wrapRow oy r) b acc) (by omega) k (by omega)
      rw [show r + 1 + k = r + (k + 1) by omega, drawRow_eq, drawCols_other ox _ b 8 acc _ _ hne] at hk2
      simpa [drawRow_eq] using hk2

theorem drawRows_hit (ox oy : Nat) (bytes : List Byte) (r : Nat) (acc : Display × Bool)
    (hlen : bytes.length ≤ 32) :
    (drawRows ox oy r bytes acc).2 = true ↔
      acc.2 = true ∨ ∃ k < bytes.length, ∃ c < 8,
        getPixel acc.1 (wrapCol ox c) (wrapRow oy (r + k)) = true ∧ spriteBit (bytes.getD k 0#8) c = true := by
  induction bytes generalizing r acc with
  | nil => simp [drawRows]
  | cons b rest ih =>
    simp only [List.length_cons] at hlen
    simp only [drawRows]
    rw [ih (r + 1) _ (by omega), drawRow_eq, drawCols_hit ox _ b 8 acc (by omega)]
    have hother : ∀ k < rest.length, ∀ c,
        getPixel (drawCols ox (wrapRow oy r) b 8 acc).1 (wrapCol ox c) (wrapRow oy (r + 1 + k))
          = getPixel acc.1 (wrapCol ox c) (wrapRow oy (r + (k + 1))) := by
      intro k hk c
      rw [drawCols_other, show r + 1 + k = r + (k + 1) by omega]
      intro c' _ e
      have := wrapRow_inj oy (r + 1 + k) r e.2 (by omega) (by omega)
      omega
    constructor
    · rintro ((h | ⟨c, hc, h⟩) | ⟨k, hk, c, hc, h⟩)
      · exact .inl h
      · exact .inr ⟨0, by simp, c, hc, by simpa using h⟩
      · exact .inr ⟨k + 1, by simpa using hk, c, hc, by rw [← hother k hk c]; simpa using h⟩
    · rintro (h | ⟨k, hk, c, hc, h⟩)
      · exact .inl (.inl h)
      · cases k with
        | zero => exact .inl (.inr ⟨c, hc, by simpa using h⟩)
        | succ k =>
          simp only [List.length_cons] at hk
          exact .inr ⟨k, by omega, c, hc, by rw [hother k (by omega) c]; simpa using h⟩

/-- Everything a draw does to the framebuffer (R143, R144): every sprite pixel's display pixel is XORed with its bit,
every other pixel stays, and the collision result is the OR of old AND bit. -/
theorem drawSprite_spec (ox oy : Nat) (bytes : List Byte) (d : Display) (hlen : bytes.length ≤ 32) :
    (∀ r < bytes.length, ∀ c < 8, getPixel (drawSprite ox oy bytes d).1 (wrapCol ox c) (wrapRow oy r)
        = (getPixel d (wrapCol ox c) (wrapRow oy r) ^^ spriteBit (bytes.getD r 0#8) c)) ∧
    (∀ col row, (∀ r < bytes.length, ∀ c < 8, ¬ (col = wrapCol ox c ∧ row = wrapRow oy r)) →
        getPixel (drawSprite ox oy bytes d).1 col row = getPixel d col row) ∧
    ((drawSprite ox oy bytes d).2 = true ↔ ∃ r < bytes.length, ∃ c < 8,
        getPixel d (wrapCol ox c) (wrapRow oy r) = true ∧ spriteBit (bytes.getD r 0#8) c = true) := by
  refine ⟨fun r hr c hc => ?_, fun col row h => ?_, ?_⟩
  · simpa [drawSprite] using drawRows_pixel ox oy bytes 0 (d, false) hlen r hr c hc
  · exact drawRows_other ox oy bytes 0 (d, false) col row (by simpa using h)
  · simpa [drawSprite] using drawRows_hit ox oy bytes 0 (d, false) hlen

end Sys2Proof.Machine
end

