-- ==== Sys2Proof/Laws/Memory.lean ====
section
/-! SUPPORT. The laws of the memory list: a read after a write, the canonical form kept by every operation. -/

namespace Sys2Proof.Machine

/-! ### Reads -/

@[simp] theorem Memory.read_nil (c : Config) (a : Nat) : Memory.read c [] a = resetByte c a := rfl

theorem Memory.read_erase (c : Config) (m : Memory) (a b : Nat) :
    Memory.read c (Memory.erase m a) b = if b = a then resetByte c b else Memory.read c m b := by
  induction m with
  | nil => simp [Memory.erase]
  | cons e rest ih =>
    obtain ⟨k, v⟩ := e
    by_cases hk : k = a
    · subst hk
      by_cases hb : b = k
      · subst hb
        simpa [Memory.erase] using ih
      · have : ¬ k = b := fun h => hb h.symm
        simp [Memory.erase, Memory.read, ih, hb, this]
    · by_cases hb : k = b
      · subst hb
        simp [Memory.erase, Memory.read, hk]
      · simp [Memory.erase, Memory.read, ih, hk, hb]

theorem Memory.read_insert (c : Config) (m : Memory) (a b : Nat) (v : Byte)
    (h : ∀ e ∈ m, e.1 ≠ a) :
    Memory.read c (Memory.insert m a v) b = if b = a then v else Memory.read c m b := by
  induction m with
  | nil =>
    by_cases hb : b = a
    · simp [Memory.insert, Memory.read, hb]
    · have : ¬ a = b := fun h => hb h.symm
      simp [Memory.insert, Memory.read, hb, this]
  | cons e rest ih =>
    obtain ⟨k, w⟩ := e
    have hk : k ≠ a := h (k, w) (by simp)
    have ih' := ih (fun e he => h e (by simp [he]))
    by_cases hb : b = a
    · subst hb
      by_cases hlt : b < k <;> simp [Memory.insert, Memory.read, hlt, hk, ih']
    · have hb' : ¬ a = b := fun h => hb h.symm
      by_cases hlt : a < k <;> simp [Memory.insert, Memory.read, hlt, hb, hb', ih']

theorem Memory.erase_no_key (m : Memory) (a : Nat) : ∀ e ∈ Memory.erase m a, e.1 ≠ a := by
  induction m with
  | nil => simp [Memory.erase]
  | cons e rest ih =>
    obtain ⟨k, v⟩ := e
    by_cases hk : k = a
    · simpa [Memory.erase, hk] using ih
    · simpa [Memory.erase, hk] using ih

/-- One write: its address reads the byte written, every other address reads as before. -/
theorem Memory.read_write (c : Config) (m : Memory) (a b : Nat) (v : Byte) :
    Memory.read c (Memory.write c m a v) b = if b = a then v else Memory.read c m b := by
  unfold Memory.write
  split
  · rename_i hv
    rw [Memory.read_erase]
    split <;> simp_all
  · rw [Memory.read_insert c _ a b v (Memory.erase_no_key m a), Memory.read_erase]
    split <;> simp_all

/-- Several bytes written: their addresses read them, every other address reads as before. -/
theorem Memory.read_writeBytes (c : Config) (bytes : List Byte) (m : Memory) (a b : Nat) :
    Memory.read c (Memory.writeBytes c m a bytes) b
      = if a ≤ b ∧ b < a + bytes.length then bytes.getD (b - a) 0#8 else Memory.read c m b := by
  induction bytes generalizing m a with
  | nil => simp [Memory.writeBytes]
  | cons v rest ih =>
    simp only [Memory.writeBytes, ih, Memory.read_write, List.length_cons]
    by_cases hb : b = a
    · subst hb
      have h1 : ¬ (b + 1 ≤ b ∧ b < b + 1 + rest.length) := by omega
      have h2 : b ≤ b ∧ b < b + (rest.length + 1) := by omega
      rw [if_neg h1, if_pos h2]
      simp
    · by_cases h1 : a + 1 ≤ b ∧ b < a + 1 + rest.length
      · have h2 : a ≤ b ∧ b < a + (rest.length + 1) := by omega
        obtain ⟨d, rfl⟩ : ∃ d, b = a + 1 + d := ⟨b - (a + 1), by omega⟩
        rw [if_pos h1, if_pos h2, show a + 1 + d - (a + 1) = d by omega, show a + 1 + d - a = d + 1 by omega,
          List.getD_cons_succ]
      · have h2 : ¬ (a ≤ b ∧ b < a + (rest.length + 1)) := by omega
        rw [if_neg h1, if_neg h2, if_neg hb]

/-! ### The canonical form -/

theorem Memory.wfFrom_mono (c : Config) {lo lo' : Nat} (m : Memory) (h : Memory.wfFrom c lo m = true)
    (hle : lo' ≤ lo) : Memory.wfFrom c lo' m = true := by
  cases m with
  | nil => rfl
  | cons e rest =>
    obtain ⟨k, v⟩ := e
    simp only [Memory.wfFrom, Bool.and_eq_true, decide_eq_true_eq] at h ⊢
    exact ⟨⟨⟨by omega, h.1.1.2⟩, h.1.2⟩, h.2⟩

theorem Memory.wfFrom_erase (c : Config) (a : Nat) (m : Memory) (lo : Nat) (h : Memory.wfFrom c lo m = true) :
    Memory.wfFrom c lo (Memory.erase m a) = true := by
  induction m generalizing lo with
  | nil => rfl
  | cons e rest ih =>
    obtain ⟨k, v⟩ := e
    simp only [Memory.wfFrom, Bool.and_eq_true, decide_eq_true_eq] at h
    by_cases hk : k = a
    · simpa [Memory.erase, hk] using ih lo (Memory.wfFrom_mono c rest h.2 (by omega))
    · simp only [Memory.erase, hk, if_false, Memory.wfFrom, Bool.and_eq_true, decide_eq_true_eq]
      exact ⟨h.1, ih _ h.2⟩

theorem Memory.wfFrom_insert (c : Config) (a : Nat) (b : Byte) (m : Memory) (lo : Nat)
    (h : Memory.wfFrom c lo m = true) (hlo : lo ≤ a) (ha : a ≤ 0xFFF) (hb : b ≠ resetByte c a)
    (hm : ∀ e ∈ m, e.1 ≠ a) : Memory.wfFrom c lo (Memory.insert m a b) = true := by
  induction m generalizing lo with
  | nil => simp [Memory.insert, Memory.wfFrom, hlo, ha, hb]
  | cons e rest ih =>
    obtain ⟨k, v⟩ := e
    have hk : k ≠ a := hm (k, v) (by simp)
    simp only [Memory.wfFrom, Bool.and_eq_true, decide_eq_true_eq] at h
    by_cases hlt : a < k
    · simp only [Memory.insert, hlt, if_true, Memory.wfFrom, Bool.and_eq_true, decide_eq_true_eq, bne_iff_ne]
      exact ⟨⟨⟨hlo, ha⟩, hb⟩, ⟨⟨hlt, h.1.1.2⟩, by simpa using h.1.2⟩, h.2⟩
    · simp only [Memory.insert, hlt, if_false, Memory.wfFrom, Bool.and_eq_true, decide_eq_true_eq]
      exact ⟨h.1, ih _ h.2 (by omega) (fun e he => hm e (by simp [he]))⟩

/-- A write inside memory keeps the canonical form. -/
theorem Memory.wf_write (c : Config) (m : Memory) (a : Nat) (b : Byte) (h : Memory.wf c m = true)
    (ha : a ≤ 0xFFF) : Memory.wf c (Memory.write c m a b) = true := by
  unfold Memory.write
  split
  · exact Memory.wfFrom_erase c a m 0 h
  · exact Memory.wfFrom_insert c a b _ 0 (Memory.wfFrom_erase c a m 0 h) (by omega) ha ‹_›
      (Memory.erase_no_key m a)

/-- Several bytes written inside memory keep the canonical form. -/
theorem Memory.wf_writeBytes (c : Config) (bytes : List Byte) (m : Memory) (a : Nat)
    (h : Memory.wf c m = true) (ha : a + bytes.length ≤ 0x1000) :
    Memory.wf c (Memory.writeBytes c m a bytes) = true := by
  induction bytes generalizing m a with
  | nil => exact h
  | cons b rest ih =>
    simp only [List.length_cons] at ha
    exact ih _ _ (Memory.wf_write c m a b h (by omega)) (by omega)

/-- The memory of a reset engine has the canonical form. -/
theorem Memory.wf_resetWith (c : Config) : Memory.wf c (State.resetWith c).mem = true := rfl

/-- In canonical form no entry below the bound is listed, so such an address reads as after reset. -/
theorem Memory.read_of_wfFrom_below (c : Config) (m : Memory) (lo a : Nat) (h : Memory.wfFrom c lo m = true)
    (ha : a < lo) : Memory.read c m a = resetByte c a := by
  induction m generalizing lo with
  | nil => rfl
  | cons e rest ih =>
    obtain ⟨k, v⟩ := e
    simp only [Memory.wfFrom, Bool.and_eq_true, decide_eq_true_eq] at h
    have hk : ¬ k = a := by omega
    simp only [Memory.read, hk, if_false]
    exact ih (k + 1) h.2 (by omega)

/-- Equal memories are equal lists: two canonical lists that read the same everywhere are the same list. -/
theorem Memory.ext_of_wfFrom (c : Config) (m m' : Memory) (lo : Nat) (h : Memory.wfFrom c lo m = true)
    (h' : Memory.wfFrom c lo m' = true) (hr : ∀ a, Memory.read c m a = Memory.read c m' a) : m = m' := by
  induction m generalizing m' lo with
  | nil =>
    cases m' with
    | nil => rfl
    | cons e rest =>
      obtain ⟨k, v⟩ := e
      have hk := hr k
      simp [Memory.wfFrom, Memory.read] at h' hk
      exact absurd hk.symm h'.1.2
  | cons e rest ih =>
    obtain ⟨k, v⟩ := e
    have hw := h
    simp only [Memory.wfFrom, Bool.and_eq_true, decide_eq_true_eq, bne_iff_ne] at h
    cases m' with
    | nil =>
      have hk := hr k
      simp [Memory.read] at hk
      exact absurd hk h.1.2
    | cons e' rest' =>
      obtain ⟨k', v'⟩ := e'
      have hw' := h'
      simp only [Memory.wfFrom, Bool.and_eq_true, decide_eq_true_eq, bne_iff_ne] at h'
      have hkk : k = k' := by
        rcases Nat.lt_trichotomy k k' with hlt | heq | hgt
        · have h1 := hr k
          have h2 : ¬ k' = k := by omega
          simp only [Memory.read, h2, if_true, if_false] at h1
          rw [Memory.read_of_wfFrom_below c rest' (k' + 1) k h'.2 (by omega)] at h1
          exact absurd h1 h.1.2
        · exact heq
        · have h1 := hr k'
          have h2 : ¬ k = k' := by omega
          simp only [Memory.read, h2, if_true, if_false] at h1
          rw [Memory.read_of_wfFrom_below c rest (k + 1) k' h.2 (by omega)] at h1
          exact absurd h1.symm h'.1.2
      subst hkk
      have hv : v = v' := by simpa [Memory.read] using hr k
      subst hv
      have hrest : rest = rest' := by
        refine ih rest' (k + 1) h.2 h'.2 (fun a => ?_)
        by_cases ha : k = a
        · subst ha
          rw [Memory.read_of_wfFrom_below c rest (k + 1) k h.2 (by omega),
            Memory.read_of_wfFrom_below c rest' (k + 1) k h'.2 (by omega)]
        · simpa [Memory.read, ha] using hr a
      rw [hrest]

end Sys2Proof.Machine
end

