-- ==== Sys2Proof/Laws/Ops.lean ====
section
/-! SUPPORT. One lemma for each shared operation, saying everything it can answer; later proofs cite it and do not unfold
the operation. -/

namespace Sys2Proof.Machine

/-! ### Faults -/

theorem raiseFault_eq (f : Fault) (s : State) : raiseFault f s = .next { s with status := .halted f } := rfl

@[simp] theorem orRaise_ok (s t : State) : orRaise s (.ok t) = .next t := rfl

@[simp] theorem orRaise_error (s : State) (f : Fault) :
    orRaise s (.error f) = .next { s with status := .halted f } := rfl

/-- `orRaise` always answers a next state: the new one, or the old one halted. -/
theorem orRaise_cases (s t : State) (r : Except Fault State) (h : orRaise s r = .next t) :
    r = .ok t ∨ ∃ f, r = .error f ∧ t = { s with status := .halted f } := by
  cases r with
  | ok u => simp_all
  | error f => exact .inr ⟨f, rfl, by simpa using h.symm⟩

/-! ### Memory blocks -/

theorem inMemory_iff (base n : Nat) : inMemory base n = true ↔ base + n ≤ 0x1000 ∨ n = 0 := by
  simp [inMemory]

theorem readBlock_ok (s : State) (base n : Nat) (h : base + n ≤ 0x1000 ∨ n = 0) :
    readBlock s base n = .ok ((List.range n).map (fun k => s.byteAt (base + k))) := by
  simp [readBlock, (inMemory_iff base n).2 h]

theorem readBlock_error (s : State) (base n : Nat) (h : ¬ (base + n ≤ 0x1000 ∨ n = 0)) :
    readBlock s base n = .error .accessOutOfRange := by
  have : inMemory base n = false := by
    rw [Bool.eq_false_iff]
    exact fun e => h ((inMemory_iff base n).1 e)
  simp [readBlock, this]

theorem writeBlock_ok (s : State) (base : Nat) (bytes : List Byte) (h : base + bytes.length ≤ 0x1000 ∨ bytes.length = 0) :
    writeBlock s base bytes = .ok { s with mem := Memory.writeBytes s.cfg s.mem base bytes } := by
  simp only [writeBlock, (inMemory_iff base bytes.length).2 h, if_true]

theorem writeBlock_error (s : State) (base : Nat) (bytes : List Byte)
    (h : ¬ (base + bytes.length ≤ 0x1000 ∨ bytes.length = 0)) :
    writeBlock s base bytes = .error .accessOutOfRange := by
  have : inMemory base bytes.length = false := by
    rw [Bool.eq_false_iff]
    exact fun e => h ((inMemory_iff base bytes.length).1 e)
  simp [writeBlock, this]

/-! ### Index register -/

theorem setIndex_ok (s : State) (t : Nat) (h : t ≤ 0xFFF) :
    setIndex s t = .ok { s with i := BitVec.ofNat 16 t } := by
  have : ¬ t > 0xFFF := by omega
  simp only [setIndex, this, if_false]

theorem setIndex_error (s : State) (t : Nat) (h : 0xFFF < t) : setIndex s t = .error .invalidMemoryAddress := by
  simp only [setIndex, h, if_true]

/-! ### Return stack -/

theorem pushReturn_ok (s : State) (addr : Word) (h : s.sp.val < 16) :
    pushReturn s addr = .ok { s with stack := s.stack.set s.sp.val addr, sp := ⟨s.sp.val + 1, by omega⟩ } := by
  simp [pushReturn, h]

theorem pushReturn_error (s : State) (addr : Word) (h : s.sp.val = 16) :
    pushReturn s addr = .error .stackOverflow := by
  have : ¬ s.sp.val < 16 := by omega
  simp [pushReturn, this]

theorem popReturn_ok (s : State) (h : 0 < s.sp.val) :
    popReturn s = .ok { s with pc := s.stack[s.sp.val - 1], sp := ⟨s.sp.val - 1, by omega⟩ } := by
  simp only [popReturn, h, dif_pos]

theorem popReturn_error (s : State) (h : s.sp.val = 0) : popReturn s = .error .stackUnderflow := by
  have : ¬ 0 < s.sp.val := by omega
  simp only [popReturn, this, dif_neg, not_false_iff]

/-! ### Key latches -/

theorem selectKey_ok (s : State) (k : Byte) (h : k.toNat ≤ 15) : selectKey s k = .ok (s.keyAt k.toNat) := by
  have : ¬ k.toNat > 15 := by omega
  simp only [selectKey, this, if_false]

theorem selectKey_error (s : State) (k : Byte) (h : 15 < k.toNat) : selectKey s k = .error .keyIndexOutOfRange := by
  simp only [selectKey, h, if_true]

theorem State.keyAt_fin (s : State) (k : Fin 16) : s.keyAt k.val = s.key[k] := by
  simp [State.keyAt]

@[simp] theorem State.keyAt_clearKeys (s : State) (k : Nat) : s.clearKeys.keyAt k = false := by
  by_cases h : k < 16
  · simp [State.keyAt, h]
  · have : 16 ≤ k := by omega
    simp [State.keyAt, this]

theorem State.firstKey_eq_some (s : State) (k : Nat) :
    s.firstKey = some k ↔ k < 16 ∧ s.keyAt k = true ∧ ∀ j < k, s.keyAt j = false := by
  rw [State.firstKey, List.find?_range_eq_some]
  simp only [List.mem_range, Bool.not_eq_eq_eq_not, Bool.not_true]
  tauto

theorem State.firstKey_eq_none (s : State) : s.firstKey = none ↔ ∀ k < 16, s.keyAt k = false := by
  rw [State.firstKey, List.find?_range_eq_none]
  simp

/-! ### Fetch -/

theorem fetchWord_ok (s : State) (h : s.pc.toNat + 1 ≤ 0xFFF) :
    fetchWord s = .ok (wordOfBytes (s.byteAt s.pc.toNat) (s.byteAt (s.pc.toNat + 1))) := by
  have : ¬ s.pc.toNat + 1 > 0xFFF := by omega
  simp only [fetchWord, this, if_false]

theorem fetchWord_error (s : State) (h : 0xFFF < s.pc.toNat + 1) : fetchWord s = .error .fetchOutOfRange := by
  simp only [fetchWord, h, if_true]

/-- Everything a fetch can answer. -/
theorem fetchInstr_cases (s : State) :
    (0xFFF < s.pc.toNat + 1 ∧ fetchInstr s = .error .fetchOutOfRange) ∨
    (s.pc.toNat + 1 ≤ 0xFFF ∧ (∃ e, decodeWord s.cfg (wordOfBytes (s.byteAt s.pc.toNat) (s.byteAt (s.pc.toNat + 1))) = .error e)
      ∧ fetchInstr s = .error .invalidInstruction) ∨
    (s.pc.toNat + 1 ≤ 0xFFF ∧ ∃ i, decodeWord s.cfg (wordOfBytes (s.byteAt s.pc.toNat) (s.byteAt (s.pc.toNat + 1))) = .ok i
      ∧ fetchInstr s = .ok i) := by
  by_cases h : s.pc.toNat + 1 ≤ 0xFFF
  · refine .inr ?_
    cases hd : decodeWord s.cfg (wordOfBytes (s.byteAt s.pc.toNat) (s.byteAt (s.pc.toNat + 1))) with
    | error e => exact .inl ⟨h, ⟨e, rfl⟩, by simp [fetchInstr, fetchWord_ok s h, hd]⟩
    | ok i => exact .inr ⟨h, i, rfl, by simp [fetchInstr, fetchWord_ok s h, hd]⟩
  · exact .inl ⟨by omega, by simp [fetchInstr, fetchWord_error s (by omega)]⟩

/-! ### Step -/

theorem step_halted (s : State) (f : Fault) (h : s.status = .halted f) : step s = .next s := by
  simp [step, h]

theorem step_fault (s : State) (f : Fault) (h : s.status = .running) (hf : fetchInstr s = .error f) :
    step s = .next { s.closeLoad with status := .halted f } := by
  simp [step, h, hf, raiseFault]

theorem step_exec (s : State) (i : Instr) (h : s.status = .running) (hf : fetchInstr s = .ok i) :
    step s = exec i s.closeLoad := by
  simp [step, h, hf]

/-- Everything a step can be (R69, R180): nothing on a halted engine, the fault of its fetch or decoding, or the
meaning of the instruction at `pc`; the last two end the time for a load. -/
theorem step_cases (s : State) :
    ((∃ f, s.status = .halted f) ∧ step s = .next s) ∨
    (s.status = .running ∧ ∃ f, fetchInstr s = .error f ∧ step s = .next { s.closeLoad with status := .halted f }) ∨
    (s.status = .running ∧ ∃ i, fetchInstr s = .ok i ∧ step s = exec i s.closeLoad) := by
  cases h : s.status with
  | halted f => exact .inl ⟨⟨f, rfl⟩, step_halted s f h⟩
  | running =>
    cases hf : fetchInstr s with
    | error f => exact .inr (.inl ⟨rfl, f, rfl, step_fault s f h hf⟩)
    | ok i => exact .inr (.inr ⟨rfl, i, rfl, step_exec s i h hf⟩)

end Sys2Proof.Machine
end

