-- ==== Sys2Proof/Laws/Registers.lean ====
section
/-! SUPPORT. The laws of the register file: a read after a write, a result with its flag, blocks of registers. -/

namespace Sys2Proof.Machine

theorem State.reg_setReg (s : State) (r q : Reg) (b : Byte) :
    (s.setReg r b).reg q = if q = r then b else s.reg q := by
  simp only [State.reg, State.setReg, Fin.getElem_fin, Vector.getElem_set]
  by_cases h : q = r
  · simp [h]
  · have : ¬ r.val = q.val := fun e => h (Fin.ext e.symm)
    simp [h, this]

@[simp] theorem State.reg_setReg_same (s : State) (r : Reg) (b : Byte) : (s.setReg r b).reg r = b := by
  simp [State.reg_setReg]

/-- The result goes to `V[x]`, then the flag to VF, which keeps the flag when `x` is VF (R70). -/
theorem State.reg_setRegThenFlag (s : State) (x q : Reg) (b f : Byte) :
    (s.setRegThenFlag x b f).reg q = if q = regVF then f else if q = x then b else s.reg q := by
  simp [State.setRegThenFlag, State.reg_setReg]

/-- Two register files that read the same are the same. -/
theorem State.v_ext {v w : Vector Byte 16} (h : ∀ q : Reg, v[q] = w[q]) : v = w := by
  apply Vector.ext
  intro i hi
  exact h ⟨i, hi⟩

theorem getElem_fillRegs (bytes : List Byte) (v : Vector Byte 16) (k : Nat) (q : Reg) :
    (fillRegs v k bytes)[q]
      = if k ≤ q.val ∧ q.val < k + bytes.length then bytes.getD (q.val - k) 0#8 else v[q] := by
  induction bytes generalizing v k with
  | nil => simp [fillRegs]
  | cons b rest ih =>
    simp only [fillRegs, ih, List.length_cons]
    by_cases hq : q.val = k
    · have h1 : ¬ (k + 1 ≤ q.val ∧ q.val < k + 1 + rest.length) := by omega
      have h2 : k ≤ q.val ∧ q.val < k + (rest.length + 1) := by omega
      rw [if_neg h1, if_pos h2]
      subst hq
      simp
    · have hk : ¬ k = q.val := fun e => hq e.symm
      by_cases h1 : k + 1 ≤ q.val ∧ q.val < k + 1 + rest.length
      · have h2 : k ≤ q.val ∧ q.val < k + (rest.length + 1) := by omega
        rw [if_pos h1, if_pos h2, show q.val - k = q.val - (k + 1) + 1 by omega, List.getD_cons_succ]
      · have h2 : ¬ (k ≤ q.val ∧ q.val < k + (rest.length + 1)) := by omega
        rw [if_neg h1, if_neg h2]
        simp [hk]

@[simp] theorem State.length_regsUpTo (s : State) (x : Reg) : (s.regsUpTo x).length = x.val + 1 := by
  simp [State.regsUpTo]

/-- Byte `k` of the block `V0..Vx` is `V[k]`. -/
theorem State.getD_regsUpTo (s : State) (x k : Reg) (h : k.val ≤ x.val) :
    (s.regsUpTo x).getD k.val 0#8 = s.reg k := by
  have hlt : k.val < x.val + 1 := by omega
  simp [State.regsUpTo, State.reg, hlt]

end Sys2Proof.Machine
end

