-- ==== Sys2Proof/Laws/Exec.lean ====
section
/-! SUPPORT. What executing an instruction can do, said once: it takes the fault its check finds, or has its effect.
Later proofs about all instructions go through `exec_eq` and do not unfold a meaning. -/

namespace Sys2Proof.Machine

/-- The fault the one check of an instruction finds (R170, R180), if any. -/
def faultOf (s : State) : Instr → Option Fault
  | .ret => if s.sp.val = 0 then some .stackUnderflow else none
  | .call _ => if s.sp.val = 16 then some .stackOverflow else none
  | .addI x => if 0xFFF < s.i.toNat + (s.reg x).toNat then some .invalidMemoryAddress else none
  | .ldF x => if 0xFFF < glyphAddress s.cfg (s.reg x) then some .invalidMemoryAddress else none
  | .drw _ _ n => if 0 < n.val ∧ 0x1000 < s.i.toNat + n.val then some .accessOutOfRange else none
  | .ldB _ => if 0x1000 < s.i.toNat + 3 then some .accessOutOfRange else none
  | .storeRegs x => if 0x1000 < s.i.toNat + (x.val + 1) then some .accessOutOfRange else none
  | .loadRegs x => if 0x1000 < s.i.toNat + (x.val + 1) then some .accessOutOfRange else none
  | .skp x => if 15 < (s.reg x).toNat then some .keyIndexOutOfRange else none
  | .sknp x => if 15 < (s.reg x).toNat then some .keyIndexOutOfRange else none
  | _ => none

/-- The bytes of a block of memory. -/
def State.bytesAt (s : State) (base n : Nat) : List Byte := (List.range n).map (fun k => s.byteAt (base + k))

/-- The effect of an instruction whose check finds no fault. -/
def effect (s : State) : Instr → State
  | .cls => { s with pix := blankDisplay, redraw := true }.advance
  | .ret => { s with pc := s.stack[s.sp.val - 1]'(by omega), sp := ⟨s.sp.val - 1, by omega⟩ }
  | .jp nnn => s.jumpTo (addrWord nnn)
  | .call nnn => { s with stack := s.stack.setIfInBounds s.sp.val (s.pc + 2#16), sp := Fin.ofNat 17 (s.sp.val + 1),
                          pc := addrWord nnn }
  | .seImm x kk => s.skipIf (s.reg x == kk)
  | .sneImm x kk => s.skipIf (s.reg x != kk)
  | .seReg x y => s.skipIf (s.reg x == s.reg y)
  | .ldImm x kk => (s.setReg x kk).advance
  | .addImm x kk => (s.setReg x (s.reg x + kk)).advance
  | .ldReg x y => (s.setReg x (s.reg y)).advance
  | .orReg x y => (s.setReg x (s.reg x ||| s.reg y)).advance
  | .andReg x y => (s.setReg x (s.reg x &&& s.reg y)).advance
  | .xorReg x y => (s.setReg x (s.reg x ^^^ s.reg y)).advance
  | .addReg x y => (s.setRegThenFlag x (s.reg x + s.reg y) (flagCarry (s.reg x) (s.reg y))).advance
  | .sub x y => (s.setRegThenFlag x (s.reg x - s.reg y) (flagNoBorrow (s.reg x) (s.reg y))).advance
  | .shr x _ => (s.setRegThenFlag x (s.reg x >>> 1) (flagShiftRight (s.reg x))).advance
  | .subn x y => (s.setRegThenFlag x (s.reg y - s.reg x) (flagNoBorrow (s.reg y) (s.reg x))).advance
  | .shl x _ => (s.setRegThenFlag x (s.reg x <<< 1) (flagShiftLeft (s.reg x))).advance
  | .sneReg x y => s.skipIf (s.reg x != s.reg y)
  | .ldI nnn => { s with i := BitVec.ofNat 16 nnn.toNat }.advance
  | .jpV0 nnn => s.jumpTo (BitVec.ofNat 16 (nnn.toNat + (s.reg 0).toNat))
  | .rnd x kk => ({ s with draws := s.draws + 1 }.setReg x (Config.randomByte s.draws &&& kk)).advance
  | .drw x y n =>
    let drawn := drawSprite (s.reg x).toNat (s.reg y).toNat (s.bytesAt s.i.toNat n.val) s.pix
    ({ s with pix := drawn.1, redraw := true }.setReg regVF (flagCollision drawn.2)).advance
  | .skp x => s.clearKeys.skipIf (s.keyAt (s.reg x).toNat)
  | .sknp x => s.clearKeys.skipIf (!s.keyAt (s.reg x).toNat)
  | .ldVxDt x => (s.setReg x s.dt).advance
  | .ldVxK x =>
    match s.firstKey with
    | some k => (s.clearKeys.setReg x (BitVec.ofNat 8 k)).advance
    | none => s
  | .ldDtVx x => { s with dt := s.reg x }.advance
  | .ldStVx x => { s with st := s.reg x }.advance
  | .addI x => { s with i := BitVec.ofNat 16 (s.i.toNat + (s.reg x).toNat) }.advance
  | .ldF x => { s with i := BitVec.ofNat 16 (glyphAddress s.cfg (s.reg x)) }.advance
  | .ldB x => { s with mem := Memory.writeBytes s.cfg s.mem s.i.toNat (bcdDigits (s.reg x)) }.advance
  | .storeRegs x => { s with mem := Memory.writeBytes s.cfg s.mem s.i.toNat (s.regsUpTo x) }.advance
  | .loadRegs x => { s with v := fillRegs s.v 0 (s.bytesAt s.i.toNat (x.val + 1)) }.advance
  | .ldVxSt x => (s.setReg x s.st).advance

@[simp] theorem State.length_bytesAt (s : State) (base n : Nat) : (s.bytesAt base n).length = n := by
  simp [State.bytesAt]

theorem State.getD_bytesAt (s : State) (base n k : Nat) (h : k < n) :
    (s.bytesAt base n).getD k 0#8 = s.byteAt (base + k) := by
  simp [State.bytesAt, h]

/-- What executing an instruction can do: its fault, taken, or its effect. -/
theorem exec_eq (i : Instr) (s : State) :
    exec i s = .next (match faultOf s i with
      | some f => { s with status := .halted f }
      | none => effect s i) := by
  cases i with
  | ret =>
    by_cases h : s.sp.val = 0
    · simp [exec, execRet, faultOf, h, popReturn_error]
    · simp [exec, execRet, faultOf, effect, h, popReturn_ok s (by omega)]
  | call nnn =>
    by_cases h : s.sp.val = 16
    · simp [exec, execCall, faultOf, h, pushReturn_error, Except.map]
    · have h' : s.sp.val < 16 := by omega
      simp only [exec, execCall, faultOf, effect, h, if_false, pushReturn_ok s _ h', Except.map, orRaise_ok,
        State.jumpTo]
      have hstack : s.stack.set s.sp.val (s.pc + 2#16) h' = s.stack.setIfInBounds s.sp.val (s.pc + 2#16) := by
        apply Vector.ext
        intro k hk
        simp [Vector.getElem_set, Vector.getElem_setIfInBounds]
      have hsp : (⟨s.sp.val + 1, by omega⟩ : Fin 17) = Fin.ofNat 17 (s.sp.val + 1) := by
        ext
        simp only [Fin.val_ofNat]
        omega
      simp only [hstack, hsp]
  | addI x =>
    by_cases h : 0xFFF < s.i.toNat + (s.reg x).toNat
    · simp [exec, execAddI, faultOf, h, setIndex_error, Except.map]
    · have h' : s.i.toNat + (s.reg x).toNat ≤ 0xFFF := by omega
      simp [exec, execAddI, faultOf, effect, h, setIndex_ok s _ h', Except.map]
  | ldF x =>
    by_cases h : 0xFFF < glyphAddress s.cfg (s.reg x)
    · simp [exec, execLdF, faultOf, h, setIndex_error, Except.map]
    · have h' : glyphAddress s.cfg (s.reg x) ≤ 0xFFF := by omega
      simp [exec, execLdF, faultOf, effect, h, setIndex_ok s _ h', Except.map]
  | ldI nnn =>
    have h : nnn.toNat ≤ 0xFFF := by have := nnn.isLt; omega
    simp [exec, execLdI, faultOf, effect, setIndex_ok s _ h, Except.map]
  | drw x y n =>
    by_cases h : 0 < n.val ∧ 0x1000 < s.i.toNat + n.val
    · simp only [exec, execDrw, faultOf, h, readBlock_error s s.i.toNat n.val (by omega), Except.map, and_self, if_true,
        orRaise_error]
    · simp only [exec, execDrw, faultOf, effect, h, readBlock_ok s s.i.toNat n.val (by omega), Except.map,
        State.bytesAt, if_false, orRaise_ok]
  | ldB x =>
    by_cases h : 0x1000 < s.i.toNat + 3
    · have h' : ¬ (s.i.toNat + (bcdDigits (s.reg x)).length ≤ 0x1000 ∨ (bcdDigits (s.reg x)).length = 0) := by
        simp only [bcdDigits, List.length_cons, List.length_nil]
        omega
      simp [exec, execLdB, faultOf, h, writeBlock_error s s.i.toNat _ h', Except.map]
    · have h' : s.i.toNat + (bcdDigits (s.reg x)).length ≤ 0x1000 ∨ (bcdDigits (s.reg x)).length = 0 := by
        simp only [bcdDigits, List.length_cons, List.length_nil]
        omega
      simp [exec, execLdB, faultOf, effect, h, writeBlock_ok s s.i.toNat _ h', Except.map]
  | storeRegs x =>
    by_cases h : 0x1000 < s.i.toNat + (x.val + 1)
    · have h' : ¬ (s.i.toNat + (s.regsUpTo x).length ≤ 0x1000 ∨ (s.regsUpTo x).length = 0) := by
        rw [State.length_regsUpTo]
        omega
      simp [exec, execStoreRegs, faultOf, h, writeBlock_error s s.i.toNat _ h', Except.map]
    · have h' : s.i.toNat + (s.regsUpTo x).length ≤ 0x1000 ∨ (s.regsUpTo x).length = 0 := by
        rw [State.length_regsUpTo]
        omega
      simp [exec, execStoreRegs, faultOf, effect, h, writeBlock_ok s s.i.toNat _ h', Except.map]
  | loadRegs x =>
    by_cases h : 0x1000 < s.i.toNat + (x.val + 1)
    · simp [exec, execLoadRegs, faultOf, h, readBlock_error s s.i.toNat (x.val + 1) (by omega), Except.map]
    · simp [exec, execLoadRegs, faultOf, effect, h, readBlock_ok s s.i.toNat (x.val + 1) (by omega), Except.map,
        State.bytesAt]
  | skp x =>
    by_cases h : 15 < (s.reg x).toNat
    · simp [exec, execSkp, faultOf, h, selectKey_error, Except.map]
    · have h' : (s.reg x).toNat ≤ 15 := by omega
      simp [exec, execSkp, faultOf, effect, h, selectKey_ok s _ h', Except.map]
  | sknp x =>
    by_cases h : 15 < (s.reg x).toNat
    · simp [exec, execSknp, faultOf, h, selectKey_error, Except.map]
    · have h' : (s.reg x).toNat ≤ 15 := by omega
      simp [exec, execSknp, faultOf, effect, h, selectKey_ok s _ h', Except.map]
  | ldVxK x =>
    cases hk : s.firstKey <;> simp [exec, execLdVxK, faultOf, effect, hk]
  | cls => rfl
  | jp nnn => rfl
  | seImm x kk => rfl
  | sneImm x kk => rfl
  | seReg x y => rfl
  | sneReg x y => rfl
  | ldImm x kk => rfl
  | addImm x kk => rfl
  | ldReg x y => rfl
  | orReg x y => rfl
  | andReg x y => rfl
  | xorReg x y => rfl
  | addReg x y => rfl
  | sub x y => rfl
  | shr x y => rfl
  | subn x y => rfl
  | shl x y => rfl
  | jpV0 nnn => rfl
  | rnd x kk => rfl
  | ldVxDt x => rfl
  | ldDtVx x => rfl
  | ldStVx x => rfl
  | ldVxSt x => rfl

/-- The effect, where the check finds no fault. -/
theorem exec_of_no_fault (i : Instr) (s : State) (h : faultOf s i = none) : exec i s = .next (effect s i) := by
  rw [exec_eq, h]

/-- The fault, where the check finds one. -/
theorem exec_of_fault (i : Instr) (s : State) (f : Fault) (h : faultOf s i = some f) :
    exec i s = .next { s with status := .halted f } := by
  rw [exec_eq, h]

/-- The two ways to a next state. -/
theorem exec_cases (i : Instr) (s t : State) (h : exec i s = .next t) :
    (∃ f, faultOf s i = some f ∧ t = { s with status := .halted f }) ∨ (faultOf s i = none ∧ t = effect s i) := by
  cases hf : faultOf s i with
  | some f =>
    rw [exec_of_fault i s f hf] at h
    exact .inl ⟨f, rfl, by simpa using h.symm⟩
  | none =>
    rw [exec_of_no_fault i s hf] at h
    exact .inr ⟨rfl, by simpa using h.symm⟩

end Sys2Proof.Machine
end

