-- ==== Sys2Proof/Laws/Whole.lean ====
section
/-! SUPPORT. What holds of every instruction and every step: the effect keeps `STATUS` and the parameters, and the check's
fault is the condition of spec 60_exceptions.md R170. -/

namespace Sys2Proof.Machine

theorem toNat_and_low_nibble (b : Byte) : (b &&& 0x0F#8).toNat = b.toNat % 16 := by
  revert b
  decide

/-- Every glyph lies inside memory: LD F, Vx never faults on legal parameters (R156). -/
theorem glyphAddress_le (c : Config) (b : Byte) (h : c.wf = true) : glyphAddress c b ≤ 0xFFF := by
  obtain ⟨_, h2, h3, _⟩ := Config.wf_bounds c h
  simp only [glyphAddress, toNat_and_low_nibble]
  omega

/-- The effect of an instruction leaves `STATUS` (R171: only a fault writes it). -/
theorem effect_status (s : State) (i : Instr) : (effect s i).status = s.status := by
  cases i
  case ldVxK x => cases hk : s.firstKey <;> simp [effect, hk]
  all_goals rfl

/-- The effect of an instruction leaves the parameters. -/
theorem effect_cfg (s : State) (i : Instr) : (effect s i).cfg = s.cfg := by
  cases i
  case ldVxK x => cases hk : s.firstKey <;> simp [effect, hk]
  all_goals rfl

/-- On legal parameters the fault a check finds is the one whose condition holds (R170). -/
theorem faultOf_iff (s : State) (i : Instr) (f : Fault) (h : s.cfg.wf = true) :
    faultOf s i = some f ↔ ExecFaultCondition i s f := by
  cases i <;> cases f <;> simp [faultOf, ExecFaultCondition]
  all_goals first
    | exact glyphAddress_le _ _ h
    | omega

/-- A step leaves the parameters. -/
theorem step_cfg (s t : State) (h : step s = .next t) : t.cfg = s.cfg := by
  obtain ⟨_, e⟩ | ⟨_, f, _, e⟩ | ⟨_, i, _, e⟩ := step_cases s
  · rw [e] at h; cases h; rfl
  · rw [e] at h; cases h; rfl
  · rw [e] at h
    obtain ⟨f, _, rfl⟩ | ⟨_, rfl⟩ := exec_cases i s.closeLoad t h
    · rfl
    · exact effect_cfg s.closeLoad i

/-- The effect of an instruction leaves the permission to load (log entry 5). -/
theorem effect_loadable (s : State) (i : Instr) : (effect s i).loadable = s.loadable := by
  cases i
  case ldVxK x => cases hk : s.firstKey <;> simp [effect, hk]
  all_goals rfl

/-- No fetch reads the permission to load. -/
@[simp] theorem fetchInstr_closeLoad (s : State) : fetchInstr s.closeLoad = fetchInstr s := rfl

/-- No check reads the permission to load. -/
@[simp] theorem faultOf_closeLoad (s : State) (i : Instr) : faultOf s.closeLoad i = faultOf s i := by
  cases i <;> rfl

/-- After a step of a running engine no load is permitted (R211). -/
theorem step_loadable (s t : State) (hr : s.status = .running) (h : step s = .next t) : t.loadable = false := by
  obtain ⟨⟨f, e⟩, _⟩ | ⟨_, f, _, e⟩ | ⟨_, i, _, e⟩ := step_cases s
  · rw [hr] at e; cases e
  · rw [e] at h; cases h; rfl
  · rw [e] at h
    obtain ⟨f, _, rfl⟩ | ⟨_, rfl⟩ := exec_cases i s.closeLoad t h
    · rfl
    · exact effect_loadable s.closeLoad i

theorem launchable_iff (s : State) : s.launchable = true ↔ s.loadable = true ∧ s.status = .running := by
  simp [State.launchable]

/-- The three answers to `load_program` (R211). -/
theorem loadProgram_cases (bytes : List Byte) (s : State) :
    (s.launchable = false ∧ loadProgram bytes s = .refused .loadNotPermitted) ∨
    (s.launchable = true ∧ 4096 - s.cfg.loadAddress < bytes.length ∧ loadProgram bytes s = .refused .imageTooLong) ∨
    (s.launchable = true ∧ bytes.length ≤ 4096 - s.cfg.loadAddress ∧
      loadProgram bytes s
        = .next { s with mem := Memory.writeBytes s.cfg s.mem s.cfg.loadAddress bytes }.closeLoad) := by
  cases hl : s.launchable with
  | false => exact .inl ⟨rfl, by simp [loadProgram, hl]⟩
  | true =>
    by_cases h : 4096 - s.cfg.loadAddress < bytes.length
    · exact .inr (.inl ⟨rfl, h, by simp only [loadProgram, hl, h]; rfl⟩)
    · exact .inr (.inr ⟨rfl, by omega, by simp only [loadProgram, hl, h]; rfl⟩)

theorem handleAll_append (l m : List Event) (s t : State) (h : handleAll l s = .next t) :
    handleAll (l ++ m) s = handleAll m t := by
  induction l generalizing s with
  | nil => cases h; rfl
  | cons e l ih =>
    simp only [handleAll, List.cons_append] at h ⊢
    cases he : handle e s with
    | next u => rw [he] at h; exact ih u h
    | fault f => rw [he] at h; cases h
    | refused r => rw [he] at h; cases h

theorem execAll_append (l m : List Instr) (s t : State) (h : execAll l s = .next t) :
    execAll (l ++ m) s = execAll m t := by
  induction l generalizing s with
  | nil => cases h; rfl
  | cons a l ih =>
    simp only [execAll, List.cons_append] at h ⊢
    cases he : exec a s with
    | next u => rw [he] at h; exact ih u h
    | fault f => rw [he] at h; cases h
    | refused r => rw [he] at h; cases h

end Sys2Proof.Machine
end

