-- ==== Sys2Proof/Laws/Events.lean ====
section
/-! SUPPORT. What the host's events do, said once: an event of a running engine gives the state it names, one of a halted
engine leaves it (spec 60_exceptions.md R172, R187 to R191). -/

namespace Sys2Proof.Machine

theorem whenRunning_running (s t : State) (h : s.status = .running) : s.whenRunning t = t := by
  simp [State.whenRunning, h]

theorem whenRunning_halted (s t : State) (f : Fault) (h : s.status = .halted f) : s.whenRunning t = s := by
  simp [State.whenRunning, h]

/-- Whatever holds of both states holds of the one the event leaves. -/
theorem whenRunning_induction (P : State → Prop) (s t : State) (hs : P s) (ht : P t) : P (s.whenRunning t) := by
  unfold State.whenRunning
  split <;> assumption

/-- `tick_timers` counts both timers down at once (R189). -/
theorem tickTimers_eq (s : State) :
    tickTimers s = s.whenRunning { s with dt := countDown s.dt, st := countDown s.st } := by
  cases h : s.status <;> simp [tickTimers, tickSound, tickDelay, State.whenRunning, h]

/-- One tick: down by one, never below zero. -/
theorem toNat_countDown (b : Byte) : (countDown b).toNat = b.toNat - 1 := by
  revert b
  decide

/-- The bytes of an image read back after its load (R211). -/
theorem byteAt_load (s : State) (bytes : List Byte) (j : Nat) (h : j < bytes.length) :
    State.byteAt { s with mem := Memory.writeBytes s.cfg s.mem s.cfg.loadAddress bytes }.closeLoad
      (s.cfg.loadAddress + j) = bytes.getD j 0#8 := by
  show Memory.read _ _ _ = _
  rw [State.closeLoad_mem, State.closeLoad_cfg, Memory.read_writeBytes, if_pos (by omega), Nat.add_sub_cancel_left]

end Sys2Proof.Machine
end

