-- ==== Sys2Proof/Laws/Frames.lean ====
section
/-! SUPPORT. The frames of the updates the meanings are made of, and the encodings of assembled words. -/

namespace Sys2Proof.Machine

/-! ### Encodings -/

theorem hasWord_encodeNnn (op : BitVec 4) (nnn : Addr) (i : Instr)
    (h : ∀ c x y n kk, decodeFields c op x y n kk nnn = .ok i) : HasWord i (encodeNnn op nnn) :=
  fun c => (decodeWord_encodeNnn c op nnn).trans (h c _ _ _ _)

theorem hasWord_encodeXKk (op : BitVec 4) (x : Reg) (kk : Byte) (i : Instr)
    (h : ∀ c y n nnn, decodeFields c op x y n kk nnn = .ok i) : HasWord i (encodeXKk op x kk) :=
  fun c => (decodeWord_encodeXKk c op x kk).trans (h c _ _ _)

theorem hasWord_encodeXYN (op : BitVec 4) (x y : Reg) (n : BitVec 4) (i : Instr)
    (h : ∀ c kk nnn, decodeFields c op x y n kk nnn = .ok i) : HasWord i (encodeXYN op x y n) :=
  fun c => (decodeWord_encodeXYN c op x y n).trans (h c _ _)

/-! ### Frames -/

/-- A register result and the advance change `pc` and that register. -/
theorem onlyChanges_setReg_advance (s : State) (x : Reg) (b : Byte) :
    OnlyChanges s (s.setReg x b).advance (fun p => p = .pc ∨ p = .reg x) := by
  intro p hp
  cases p <;> simp_all [Part.same, State.reg_setReg]

/-- A result with its flag and the advance change `pc`, the register and VF. -/
theorem onlyChanges_setRegThenFlag_advance (s : State) (x : Reg) (b f : Byte) :
    OnlyChanges s (s.setRegThenFlag x b f).advance (fun p => p = .pc ∨ p = .reg x ∨ p = .reg 15) := by
  intro p hp
  cases p <;> simp_all [Part.same, State.reg_setRegThenFlag, regVF]

/-- A skip changes `pc`. -/
theorem onlyChanges_skipIf (s : State) (c : Bool) : OnlyChanges s (s.skipIf c) (fun p => p = .pc) := by
  intro p hp
  cases p <;> simp_all [Part.same]

/-- A jump changes `pc`. -/
theorem onlyChanges_jumpTo (s : State) (w : Word) : OnlyChanges s (s.jumpTo w) (fun p => p = .pc) := by
  intro p hp
  cases p <;> simp_all [Part.same]

/-- A store and the advance change `pc` and the bytes stored to. -/
theorem onlyChanges_writeBytes_advance (s : State) (a : Nat) (bytes : List Byte) :
    OnlyChanges s { s with mem := Memory.writeBytes s.cfg s.mem a bytes }.advance
      (fun p => p = .pc ∨ ∃ k < bytes.length, p = .byte (a + k)) := by
  intro p hp
  cases p <;> simp_all [Part.same, State.reg, State.pixel, State.byteAt]
  rename_i b
  rw [Memory.read_writeBytes, if_neg]
  rintro ⟨h1, h2⟩
  exact hp (b - a) (by omega) (by omega)

/-- A stored byte reads back. -/
theorem byteAt_writeBytes_advance (s : State) (a : Nat) (bytes : List Byte) (k : Nat) (h : k < bytes.length) :
    State.byteAt { s with mem := Memory.writeBytes s.cfg s.mem a bytes }.advance (a + k) = bytes.getD k 0#8 := by
  show Memory.read _ _ _ = _
  rw [State.advance_mem, State.advance_cfg, Memory.read_writeBytes, if_pos (by omega), Nat.add_sub_cancel_left]

/-- Taking a fault changes `STATUS` (R171). -/
theorem onlyChanges_halt (s : State) (f : Fault) :
    OnlyChanges s { s with status := .halted f } (fun p => p = .status) := by
  intro p hp
  cases p <;> simp_all [Part.same, State.reg, State.byteAt, State.pixel]

end Sys2Proof.Machine
end

