-- ==== Sys2Proof/Laws/PerInstr.lean ====
section
/-! SUPPORT. Statements made per instruction. RoundTrip: decoding the word of a well-formed instruction gives it back. -/

namespace Sys2Proof.Laws

/-- Decoding the encoded word of `i` gives `i`, for every legal choice of the parameters that gives `i` a word. -/
def RoundTrip.Statement (i : Instr) : Prop :=
  ∀ c : Config, c.wf = true → i.wf c = true → ∃ w, encodeWord c i = some w ∧ decodeWord c w = .ok i

namespace RoundTrip

theorem cls : Statement .cls := fun _ _ _ => ⟨_, rfl, rfl⟩

theorem ret : Statement .ret := fun _ _ _ => ⟨_, rfl, rfl⟩

theorem jp (nnn : Addr) : Statement (.jp nnn) := fun c _ _ =>
  ⟨_, rfl, decodeWord_encodeNnn c _ nnn⟩

theorem call (nnn : Addr) : Statement (.call nnn) := fun c _ _ =>
  ⟨_, rfl, decodeWord_encodeNnn c _ nnn⟩

theorem seImm (x : Reg) (kk : Byte) : Statement (.seImm x kk) := fun c _ _ =>
  ⟨_, rfl, decodeWord_encodeXKk c _ x kk⟩

theorem sneImm (x : Reg) (kk : Byte) : Statement (.sneImm x kk) := fun c _ _ =>
  ⟨_, rfl, decodeWord_encodeXKk c _ x kk⟩

theorem seReg (x y : Reg) : Statement (.seReg x y) := fun c _ _ =>
  ⟨_, rfl, decodeWord_encodeXYN c _ x y _⟩

theorem ldImm (x : Reg) (kk : Byte) : Statement (.ldImm x kk) := fun c _ _ =>
  ⟨_, rfl, decodeWord_encodeXKk c _ x kk⟩

theorem addImm (x : Reg) (kk : Byte) : Statement (.addImm x kk) := fun c _ _ =>
  ⟨_, rfl, decodeWord_encodeXKk c _ x kk⟩

theorem ldReg (x y : Reg) : Statement (.ldReg x y) := fun c _ _ =>
  ⟨_, rfl, decodeWord_encodeXYN c _ x y _⟩

theorem orReg (x y : Reg) : Statement (.orReg x y) := fun c _ _ =>
  ⟨_, rfl, decodeWord_encodeXYN c _ x y _⟩

theorem andReg (x y : Reg) : Statement (.andReg x y) := fun c _ _ =>
  ⟨_, rfl, decodeWord_encodeXYN c _ x y _⟩

theorem xorReg (x y : Reg) : Statement (.xorReg x y) := fun c _ _ =>
  ⟨_, rfl, decodeWord_encodeXYN c _ x y _⟩

theorem addReg (x y : Reg) : Statement (.addReg x y) := fun c _ _ =>
  ⟨_, rfl, decodeWord_encodeXYN c _ x y _⟩

theorem sub (x y : Reg) : Statement (.sub x y) := fun c _ _ =>
  ⟨_, rfl, decodeWord_encodeXYN c _ x y _⟩

theorem shr (x y : Reg) : Statement (.shr x y) := fun c _ _ =>
  ⟨_, rfl, decodeWord_encodeXYN c _ x y _⟩

theorem subn (x y : Reg) : Statement (.subn x y) := fun c _ _ =>
  ⟨_, rfl, decodeWord_encodeXYN c _ x y _⟩

theorem shl (x y : Reg) : Statement (.shl x y) := fun c _ _ =>
  ⟨_, rfl, decodeWord_encodeXYN c _ x y _⟩

theorem sneReg (x y : Reg) : Statement (.sneReg x y) := fun c _ _ =>
  ⟨_, rfl, decodeWord_encodeXYN c _ x y _⟩

theorem ldI (nnn : Addr) : Statement (.ldI nnn) := fun c _ _ =>
  ⟨_, rfl, decodeWord_encodeNnn c _ nnn⟩

theorem jpV0 (nnn : Addr) : Statement (.jpV0 nnn) := fun c _ _ =>
  ⟨_, rfl, decodeWord_encodeNnn c _ nnn⟩

theorem rnd (x : Reg) (kk : Byte) : Statement (.rnd x kk) := fun c _ _ =>
  ⟨_, rfl, decodeWord_encodeXKk c _ x kk⟩

theorem drw (x y : Reg) (m : Fin 16) : Statement (.drw x y m) := fun c _ _ =>
  ⟨_, rfl, decodeWord_encodeXYN c _ x y _⟩

theorem skp (x : Reg) : Statement (.skp x) := fun c _ _ =>
  ⟨_, rfl, decodeWord_encodeXKk c _ x _⟩

theorem sknp (x : Reg) : Statement (.sknp x) := fun c _ _ =>
  ⟨_, rfl, decodeWord_encodeXKk c _ x _⟩

theorem ldVxDt (x : Reg) : Statement (.ldVxDt x) := fun c _ _ =>
  ⟨_, rfl, decodeWord_encodeXKk c _ x _⟩

theorem ldVxK (x : Reg) : Statement (.ldVxK x) := fun c _ _ =>
  ⟨_, rfl, decodeWord_encodeXKk c _ x _⟩

theorem ldDtVx (x : Reg) : Statement (.ldDtVx x) := fun c _ _ =>
  ⟨_, rfl, decodeWord_encodeXKk c _ x _⟩

theorem ldStVx (x : Reg) : Statement (.ldStVx x) := fun c _ _ =>
  ⟨_, rfl, decodeWord_encodeXKk c _ x _⟩

theorem addI (x : Reg) : Statement (.addI x) := fun c _ _ =>
  ⟨_, rfl, decodeWord_encodeXKk c _ x _⟩

theorem ldF (x : Reg) : Statement (.ldF x) := fun c _ _ =>
  ⟨_, rfl, decodeWord_encodeXKk c _ x _⟩

theorem ldB (x : Reg) : Statement (.ldB x) := fun c _ _ =>
  ⟨_, rfl, decodeWord_encodeXKk c _ x _⟩

theorem storeRegs (x : Reg) : Statement (.storeRegs x) := fun c _ _ =>
  ⟨_, rfl, decodeWord_encodeXKk c _ x _⟩

theorem loadRegs (x : Reg) : Statement (.loadRegs x) := fun c _ _ =>
  ⟨_, rfl, decodeWord_encodeXKk c _ x _⟩

theorem ldVxSt (x : Reg) : Statement (.ldVxSt x) := by
  intro c hc hi
  obtain ⟨b, hb⟩ := Option.isSome_iff_exists.1 hi
  have hfresh := Config.ldVxStLow_fresh c hc b hb
  refine ⟨encodeXKk 0xF#4 x b, by simp [encodeWord, hb], ?_⟩
  rw [decodeWord_encodeXKk]
  simp only [Config.usedLowBytes, List.mem_cons, List.not_mem_nil, or_false, not_or] at hfresh
  simp [decodeFields, decodeGroupF, hfresh, hb]

end RoundTrip

end Sys2Proof.Laws
end

