-- ==== Sys2Proof/Tests/Slice0.lean ====
section
/-! SUPPORT. Tests: the checks refuse ill-formed terms, words written out from the encodings of spec 30_encoding.md R66
decode, one-step vectors of spec 95_test_vectors.md (each docstring names its rows), and a witness for the hypotheses of
every statement. The expected results are the spec's. -/

namespace Sys2Proof.Tests

open Sys2Proof Sys2Proof.Machine

/-! ### The checks refuse ill-formed terms (R2 to R5) -/

/-- Parameters with LD Vx, ST at the hypothetical low byte of vector FM32. -/
def withSt : Config := { Config.default with ldVxStLow := some 0x08#8 }

theorem test_default_parameters_legal : Config.default.wf = true ∧ withSt.wf = true := by decide

theorem test_odd_load_address_refused : ({ Config.default with loadAddress := 0x201 } : Config).wf = false := by decide

theorem test_load_address_in_font_refused :
    ({ Config.default with loadAddress := 0x09E } : Config).wf = false
      ∧ ({ Config.default with loadAddress := 0x0A0 } : Config).wf = true := by decide

theorem test_load_address_past_end_refused :
    ({ Config.default with loadAddress := 0x1000 } : Config).wf = false
      ∧ ({ Config.default with loadAddress := 0xFFE } : Config).wf = true := by decide

theorem test_font_past_load_address_refused :
    ({ Config.default with fontBase := 0x1B1 } : Config).wf = false
      ∧ ({ Config.default with fontBase := 0x1B0 } : Config).wf = true := by decide

theorem test_short_font_refused : ({ Config.default with fontTable := [0xF0#8] } : Config).wf = false := by decide

theorem test_used_low_byte_refused : ({ Config.default with ldVxStLow := some 0x07#8 } : Config).wf = false := by decide

theorem test_sound_timer_load_without_parameter_ill_formed :
    (Instr.ldVxSt 5).wf Config.default = false ∧ (Instr.ldVxSt 5).wf withSt = true := by decide

theorem test_memory_form_refused :
    Memory.wf Config.default [(2, 1#8), (1, 1#8)] = false ∧ Memory.wf Config.default [(1, 1#8), (1, 2#8)] = false
      ∧ Memory.wf Config.default [(1, 0#8)] = false ∧ Memory.wf Config.default [(0x50, 0xF0#8)] = false
      ∧ Memory.wf Config.default [(0x1000, 1#8)] = false ∧ Memory.wf Config.default [(0x50, 0#8), (0xFFF, 1#8)] = true := by
  decide

/-! ### Words written out bit by bit from R66 -/

/-- Rows 1 to 4 and 21. -/
theorem test_decode_control :
    decodeWord Config.default 0b0000000011100000#16 = .ok .cls
      ∧ decodeWord Config.default 0b0000000011101110#16 = .ok .ret
      ∧ decodeWord Config.default 0b0001001000110100#16 = .ok (.jp 0x234#12)
      ∧ decodeWord Config.default 0b0010001100000001#16 = .ok (.call 0x301#12)
      ∧ decodeWord Config.default 0b1011111111111110#16 = .ok (.jpV0 0xFFE#12) := by decide

/-- Rows 5 to 7, 19, 24 and 25. -/
theorem test_decode_skips :
    decodeWord Config.default 0b0011001100101010#16 = .ok (.seImm 3 0x2A#8)
      ∧ decodeWord Config.default 0b0100001100101011#16 = .ok (.sneImm 3 0x2B#8)
      ∧ decodeWord Config.default 0b0101000100100000#16 = .ok (.seReg 1 2)
      ∧ decodeWord Config.default 0b1001000100100000#16 = .ok (.sneReg 1 2)
      ∧ decodeWord Config.default 0b1110010010011110#16 = .ok (.skp 4)
      ∧ decodeWord Config.default 0b1110010010100001#16 = .ok (.sknp 4) := by decide

/-- Rows 8 to 13, 20 and 22. -/
theorem test_decode_loads_and_logic :
    decodeWord Config.default 0b0110101000000010#16 = .ok (.ldImm 10 0x02#8)
      ∧ decodeWord Config.default 0b0111101000000011#16 = .ok (.addImm 10 0x03#8)
      ∧ decodeWord Config.default 0b1000000100100000#16 = .ok (.ldReg 1 2)
      ∧ decodeWord Config.default 0b1000000100100001#16 = .ok (.orReg 1 2)
      ∧ decodeWord Config.default 0b1000000100100010#16 = .ok (.andReg 1 2)
      ∧ decodeWord Config.default 0b1000000100100011#16 = .ok (.xorReg 1 2)
      ∧ decodeWord Config.default 0b1010001011110000#16 = .ok (.ldI 0x2F0#12)
      ∧ decodeWord Config.default 0b1100001100001111#16 = .ok (.rnd 3 0x0F#8) := by decide

/-- Rows 14 to 18 and 23. -/
theorem test_decode_flag_writers :
    decodeWord Config.default 0b1000000111110100#16 = .ok (.addReg 1 15)
      ∧ decodeWord Config.default 0b1000111100010101#16 = .ok (.sub 15 1)
      ∧ decodeWord Config.default 0b1000000100100110#16 = .ok (.shr 1 2)
      ∧ decodeWord Config.default 0b1000000100100111#16 = .ok (.subn 1 2)
      ∧ decodeWord Config.default 0b1000000100101110#16 = .ok (.shl 1 2)
      ∧ decodeWord Config.default 0b1101001000110101#16 = .ok (.drw 2 3 5) := by decide

/-- Rows 26 to 35. -/
theorem test_decode_group_f :
    decodeWord Config.default 0b1111010100000111#16 = .ok (.ldVxDt 5)
      ∧ decodeWord Config.default 0b1111010100001010#16 = .ok (.ldVxK 5)
      ∧ decodeWord Config.default 0b1111010100010101#16 = .ok (.ldDtVx 5)
      ∧ decodeWord Config.default 0b1111010100011000#16 = .ok (.ldStVx 5)
      ∧ decodeWord Config.default 0b1111000100011110#16 = .ok (.addI 1)
      ∧ decodeWord Config.default 0b1111001100101001#16 = .ok (.ldF 3)
      ∧ decodeWord Config.default 0b1111000100110011#16 = .ok (.ldB 1)
      ∧ decodeWord Config.default 0b1111001001010101#16 = .ok (.storeRegs 2)
      ∧ decodeWord Config.default 0b1111001001100101#16 = .ok (.loadRegs 2)
      ∧ decodeWord withSt 0b1111010100001000#16 = .ok (.ldVxSt 5) := by decide

/-- The table of illegal words (R67): vectors CF20, CF24, CF31, AL50, AL51, FM31, FM33, FM34. -/
theorem test_decode_illegal :
    decodeWord Config.default 0x0000#16 = .error .illegalGroup0
      ∧ decodeWord Config.default 0x00E1#16 = .error .illegalGroup0
      ∧ decodeWord Config.default 0x5121#16 = .error .illegalGroup5
      ∧ decodeWord Config.default 0x8128#16 = .error .illegalGroup8
      ∧ decodeWord Config.default 0x812F#16 = .error .illegalGroup8
      ∧ decodeWord Config.default 0x9121#16 = .error .illegalGroup9
      ∧ decodeWord Config.default 0xE400#16 = .error .illegalGroupE
      ∧ decodeWord Config.default 0xF508#16 = .error .illegalGroupF
      ∧ decodeWord Config.default 0xF500#16 = .error .illegalGroupF
      ∧ decodeBytes Config.default [0x6A#8] = .error .truncated := by decide

/-- The bytes of S9, in memory order, and what follows them (R60). -/
theorem test_decode_bytes_leaves_rest :
    decodeBytes Config.default [0x6A#8, 0x02#8, 0x7A#8] = .ok (.ldImm 10 0x02#8, [0x7A#8]) := by decide

/-! ### One-step vectors of 95_test_vectors.md -/

/-- The reset state with a word placed at `0x200`. -/
def start (w : Nat) : State := State.reset.withFetchWord 16 w

/-- The reset state with a word placed at an address, and `pc` there. -/
def startAt (a w : Nat) : State := { State.reset with pc := BitVec.ofNat 16 a }.withFetchWord 16 w

/-- The state after one step. -/
def stepped (s : State) : State :=
  match step s with
  | .next t => t
  | .fault _ => s
  | .refused _ => s

/-- The state after one event. -/
def handled (e : Event) (s : State) : State :=
  match handle e s with
  | .next t => t
  | .fault _ => s
  | .refused _ => s

/-- A state with bytes stored from an address up. -/
def poked (s : State) (a : Nat) (bytes : List Byte) : State :=
  { s with mem := Memory.writeBytes s.cfg s.mem a bytes }

/-- CF1, CF2. -/
theorem test_cls :
    (stepped { start 0x00E0 with pix := setPixel blankDisplay 63 31 true }).pixel 63 31 = false
      ∧ (stepped (start 0x00E0)).redraw = true ∧ (stepped (start 0x00E0)).pc = 0x202#16 := by decide +kernel

/-- CF3, CF4. -/
theorem test_ret :
    (stepped { startAt 0x300 0x00EE with sp := 1, stack := State.reset.stack.set 0 0x204#16 }).pc = 0x204#16
      ∧ (stepped (start 0x00EE)).status = .halted .stackUnderflow ∧ (stepped (start 0x00EE)).pc = 0x200#16 := by decide

/-- CF5. -/
theorem test_jp : (stepped (start 0x1234)).pc = 0x234#16 := by decide

/-- CF9, CF10. -/
theorem test_call :
    (stepped { start 0x2300 with sp := 15 }).stack[15] = 0x202#16
      ∧ (stepped { start 0x2300 with sp := 15 }).pc = 0x300#16 ∧ (stepped { start 0x2300 with sp := 15 }).sp = 16
      ∧ (stepped { start 0x2300 with sp := 16 }).status = .halted .stackOverflow := by decide

/-- CF12. -/
theorem test_jp_v0 : (stepped ((start 0xBFFF).setReg 0 0xFF#8)).pc = 0x10FE#16 := by decide

/-- CF13, CF14. -/
theorem test_se_imm :
    (stepped ((start 0x332A).setReg 3 0x2A#8)).pc = 0x204#16
      ∧ (stepped ((start 0x332B).setReg 3 0x2A#8)).pc = 0x202#16 := by decide

/-- CF15, CF16. -/
theorem test_sne_imm :
    (stepped ((start 0x432A).setReg 3 0x2A#8)).pc = 0x202#16
      ∧ (stepped ((start 0x432B).setReg 3 0x2A#8)).pc = 0x204#16 := by decide

/-- CF17, CF18. -/
theorem test_se_reg :
    (stepped (((start 0x5120).setReg 1 7#8).setReg 2 7#8)).pc = 0x204#16
      ∧ (stepped (((start 0x5120).setReg 1 7#8).setReg 2 8#8)).pc = 0x202#16 := by decide

/-- CF21, CF22. -/
theorem test_sne_reg :
    (stepped (((start 0x9120).setReg 1 7#8).setReg 2 8#8)).pc = 0x204#16
      ∧ (stepped (((start 0x9120).setReg 1 7#8).setReg 2 7#8)).pc = 0x202#16 := by decide

/-- Latches 2 and 10 set. -/
def keys2and10 : Vector Bool 16 := ((Vector.replicate 16 false).set 2 true).set 10 true

/-- CF25, CF26. -/
theorem test_skp :
    (stepped { (start 0xE49E).setReg 4 0x0A#8 with key := keys2and10 }).pc = 0x204#16
      ∧ (stepped { (start 0xE49E).setReg 4 0x03#8 with key := keys2and10 }).pc = 0x202#16
      ∧ (stepped { (start 0xE49E).setReg 4 0x03#8 with key := keys2and10 }).key = Vector.replicate 16 false := by decide

/-- CF27. -/
theorem test_skp_fault :
    (stepped { (start 0xE49E).setReg 4 0x10#8 with key := keys2and10 }).status = .halted .keyIndexOutOfRange
      ∧ (stepped { (start 0xE49E).setReg 4 0x10#8 with key := keys2and10 }).key = keys2and10 := by decide

/-- CF28, CF29. -/
theorem test_sknp :
    (stepped { (start 0xE4A1).setReg 4 0x0A#8 with key := keys2and10 }).pc = 0x202#16
      ∧ (stepped ((start 0xE4A1).setReg 4 0x0A#8)).pc = 0x204#16 := by decide

/-- AL1. -/
theorem test_ld_imm : (stepped (start 0x6A02)).reg 10 = 0x02#8 ∧ (stepped (start 0x6A02)).pc = 0x202#16 := by decide

/-- AL4, AL5. -/
theorem test_add_imm :
    (stepped ((start 0x71FF).setReg 1 0x05#8)).reg 1 = 0x04#8
      ∧ (stepped (((start 0x7120).setReg 1 0xF0#8).setReg 15 0x01#8)).reg 15 = 0x01#8 := by decide

/-- AL7. -/
theorem test_ld_reg : (stepped ((start 0x8120).setReg 2 0x33#8)).reg 1 = 0x33#8 := by decide

/-- AL8. -/
theorem test_or : (stepped (((start 0x8121).setReg 1 0x0F#8).setReg 2 0xF0#8)).reg 1 = 0xFF#8 := by decide

/-- AL9. -/
theorem test_and : (stepped (((start 0x8122).setReg 1 0x3C#8).setReg 2 0x0F#8)).reg 1 = 0x0C#8 := by decide

/-- AL10. -/
theorem test_xor :
    (stepped ((((start 0x8123).setReg 1 0xFF#8).setReg 2 0x0F#8).setReg 15 0x01#8)).reg 1 = 0xF0#8
      ∧ (stepped ((((start 0x8123).setReg 1 0xFF#8).setReg 2 0x0F#8).setReg 15 0x01#8)).reg 15 = 0x01#8 := by decide

/-- AL12, AL14. -/
theorem test_add :
    (stepped (((start 0x8124).setReg 1 200#8).setReg 2 100#8)).reg 1 = 0x2C#8
      ∧ (stepped (((start 0x8124).setReg 1 200#8).setReg 2 100#8)).reg 15 = 0x01#8
      ∧ (stepped (((start 0x8124).setReg 1 0xFF#8).setReg 15 0x01#8)).reg 15 = 0x00#8 := by decide

/-- AL18, AL20: VF as the destination keeps the flag, VF as a source is read before it. -/
theorem test_add_vf :
    (stepped (((start 0x8F14).setReg 15 200#8).setReg 1 100#8)).reg 15 = 0x01#8
      ∧ (stepped (((start 0x81F4).setReg 1 0xFF#8).setReg 15 0x01#8)).reg 1 = 0x00#8 := by decide

/-- AL22, AL23. -/
theorem test_sub :
    (stepped (((start 0x8125).setReg 1 5#8).setReg 2 7#8)).reg 1 = 0xFE#8
      ∧ (stepped (((start 0x8125).setReg 1 5#8).setReg 2 7#8)).reg 15 = 0x00#8
      ∧ (stepped (((start 0x8125).setReg 1 7#8).setReg 2 7#8)).reg 15 = 0x01#8 := by decide

/-- AL38, AL39. -/
theorem test_shr :
    (stepped ((start 0x8106).setReg 1 0xFF#8)).reg 1 = 0x7F#8 ∧ (stepped ((start 0x8106).setReg 1 0xFF#8)).reg 15 = 1#8
      ∧ (stepped (((start 0x8126).setReg 1 0x04#8).setReg 2 0xFF#8)).reg 1 = 0x02#8 := by decide

/-- AL30, AL31. -/
theorem test_subn :
    (stepped (((start 0x8127).setReg 1 5#8).setReg 2 7#8)).reg 1 = 0x02#8
      ∧ (stepped (((start 0x8127).setReg 1 7#8).setReg 2 5#8)).reg 15 = 0x00#8 := by decide

/-- AL42, AL43: 128 gives flag 0. -/
theorem test_shl :
    (stepped ((start 0x810E).setReg 1 0x81#8)).reg 1 = 0x02#8 ∧ (stepped ((start 0x810E).setReg 1 0x81#8)).reg 15 = 1#8
      ∧ (stepped ((start 0x810E).setReg 1 0x80#8)).reg 15 = 0#8 := by decide

/-- AL53. -/
theorem test_ld_i : (stepped (start 0xAFFF)).i = 0xFFF#16 := by decide

/-- AL54: whatever the byte is, it is masked. -/
theorem test_rnd : (stepped (start 0xC30F)).reg 3 = Config.randomByte 0 &&& 0x0F#8 := rfl

/-- DR2. -/
theorem test_drw_wraps :
    (fun t : State => t.pixel 62 31 && t.pixel 5 31 && !t.pixel 6 31 && t.pixel 62 0 && !t.pixel 63 0 && t.pixel 5 0
        && t.redraw && t.reg 15 == 0#8)
      (stepped (poked { ((start 0xD012).setReg 0 62#8).setReg 1 31#8 with i := 0x300#16 } 0x300 [0xFF#8, 0x81#8]))
      = true := by decide +kernel

/-- DR3. -/
theorem test_drw_collides :
    (fun t : State => t.pixel 0 0 && !t.pixel 1 0 && t.pixel 5 5 && t.reg 15 == 1#8)
      (stepped (poked { start 0xD011 with
        i := 0x300#16, pix := setPixel (setPixel blankDisplay 1 0 true) 5 5 true } 0x300 [0xC0#8])) = true := by
  decide +kernel

/-- FM1. -/
theorem test_ld_vx_dt : (stepped { start 0xF507 with dt := 0x3C#8 }).reg 5 = 0x3C#8 := by decide

/-- FM2, FM3: the least key is taken; with none the engine waits. -/
theorem test_ld_vx_k :
    (stepped { start 0xF50A with key := keys2and10 }).reg 5 = 2#8
      ∧ (stepped { start 0xF50A with key := keys2and10 }).key = Vector.replicate 16 false
      ∧ (stepped (start 0xF20A)).pc = 0x200#16 := by decide

/-- FM6. -/
theorem test_ld_dt_vx : (stepped ((start 0xF515).setReg 5 0x3C#8)).dt = 0x3C#8 := by decide

/-- FM7. -/
theorem test_ld_st_vx :
    (stepped ((start 0xF518).setReg 5 0x02#8)).st = 0x02#8 ∧ (stepped ((start 0xF518).setReg 5 0x02#8)).tone = true := by
  decide

/-- FM10, FM12. -/
theorem test_add_i :
    (stepped { (start 0xF11E).setReg 1 0xFF#8 with i := 0xF00#16 }).i = 0xFFF#16
      ∧ (stepped { (start 0xF11E).setReg 1 0xFF#8 with i := 0xF01#16 }).status = .halted .invalidMemoryAddress
      ∧ (stepped { (start 0xF11E).setReg 1 0xFF#8 with i := 0xF01#16 }).i = 0xF01#16 := by decide

/-- FM14, FM16. -/
theorem test_ld_f :
    (stepped ((start 0xF329).setReg 3 0x1A#8)).i = 0x082#16
      ∧ (stepped ((start 0xF329).setReg 3 0xFF#8)).i = 0x09B#16 := by decide

/-- FM17. -/
theorem test_ld_b :
    (fun t : State => [t.byteAt 0x300, t.byteAt 0x301, t.byteAt 0x302])
      (stepped { (start 0xF133).setReg 1 205#8 with i := 0x300#16 }) = [2#8, 0#8, 5#8] := by decide

/-- FM22. -/
theorem test_ld_b_fault :
    (stepped { (start 0xF133).setReg 1 99#8 with i := 0xFFE#16 }).status = .halted .accessOutOfRange
      ∧ (stepped { (start 0xF133).setReg 1 99#8 with i := 0xFFE#16 }).byteAt 0xFFF = 0#8 := by decide

/-- FM23. -/
theorem test_store_regs :
    (fun t : State => ([t.byteAt 0x300, t.byteAt 0x301, t.byteAt 0x302, t.byteAt 0x303], t.i))
      (stepped { ((((start 0xF255).setReg 0 0x11#8).setReg 1 0x22#8).setReg 2 0x33#8).setReg 3 0x44#8 with i := 0x300#16 })
      = ([0x11#8, 0x22#8, 0x33#8, 0#8], 0x300#16) := by decide

/-- FM25. -/
theorem test_store_regs_fault :
    (stepped { ((start 0xF155).setReg 0 0x11#8).setReg 1 0x22#8 with i := 0xFFF#16 }).status = .halted .accessOutOfRange
      ∧ (stepped { ((start 0xF155).setReg 0 0x11#8).setReg 1 0x22#8 with i := 0xFFF#16 }).byteAt 0xFFF = 0#8 := by decide

/-- FM28. -/
theorem test_load_regs :
    (fun t : State => ([t.reg 0, t.reg 1, t.reg 2, t.reg 3], t.i))
      (stepped (poked { (start 0xF265).setReg 3 0x77#8 with i := 0x300#16 } 0x300 [0xAA#8, 0xBB#8, 0xCC#8, 0xDD#8]))
      = ([0xAA#8, 0xBB#8, 0xCC#8, 0x77#8], 0x300#16) := by decide

/-- FM30. -/
theorem test_load_regs_fault :
    (stepped { start 0xF165 with i := 0xFFF#16 }).status = .halted .accessOutOfRange := by decide

/-- FM32. -/
theorem test_ld_vx_st :
    (stepped { (State.resetWith withSt).withFetchWord 16 0xF508 with st := 0x10#8 }).reg 5 = 0x10#8 := by decide

/-- FE1, FE2, FE3. -/
theorem test_fetch :
    (stepped (startAt 0xFFE 0x6007)).pc = 0x1000#16
      ∧ (stepped { State.reset with pc := 0xFFF#16 }).status = .halted .fetchOutOfRange
      ∧ (stepped (startAt 0x203 0x6107)).pc = 0x205#16 := by decide

/-- FM34, P8: the bytes of reset memory at `0x200` are no instruction. -/
theorem test_illegal_word_halts :
    (stepped State.reset).status = .halted .invalidInstruction ∧ (stepped State.reset).pc = 0x200#16 := by decide

/-- TM1, TM2, TM3, TM7. -/
theorem test_ticks :
    (handled .tickDelay { State.reset with dt := 2#8, st := 2#8 }).dt = 1#8 ∧ (handled .tickDelay State.reset).dt = 0#8
      ∧ (handled .tickSound { State.reset with st := 1#8 }).tone = false
      ∧ (handled .tickDelay { State.reset with dt := 5#8, status := .halted .stackUnderflow }).dt = 5#8 := by decide

/-- RS1, RS2. -/
theorem test_reset :
    (fun t : State => (t.pc, t.status, [t.byteAt 0x050, t.byteAt 0x051, t.byteAt 0x09F, t.byteAt 0x0A0]))
      (handled .reset { startAt 0x300 0x00EE with status := .halted .stackUnderflow })
      = (0x200#16, .running, [0xF0#8, 0x90#8, 0x80#8, 0#8]) := by decide

/-- P1's image loaded (R211), and a load refused after a step, after a load of no bytes, and permitted after `reset`. -/
theorem test_load_program :
    (handled (.loadProgram [0x6A#8, 0x02#8, 0x7A#8, 0x03#8]) State.reset).byteAt 0x203 = 0x03#8
      ∧ (stepped (start 0x6A02)).launchable = false ∧ (handled (.loadProgram []) State.reset).launchable = false
      ∧ (handled .reset (stepped (start 0x6A02))).launchable = true := by decide

/-- RS5, RS6. -/
theorem test_host_writes :
    (handled .ackRedraw { State.reset with redraw := true }).redraw = false
      ∧ (handled (.setKey 7 true) State.reset).key[7] = true := by decide

/-! ### Witnesses for the hypotheses of the statements, at the ends of their ranges -/

theorem witness_DecodeUndoesEncode :
    Config.default.wf = true ∧ (Instr.loadRegs 15).wf Config.default = true ∧ withSt.wf = true
      ∧ (Instr.ldVxSt 15).wf withSt = true := by decide

theorem witness_EncodeUndoesDecode :
    decodeWord Config.default 0xFF65#16 = .ok (.loadRegs 15) ∧ decodeWord withSt 0xFF08#16 = .ok (.ldVxSt 15) := by decide

theorem witness_DecodeFollowsOpcodeRows :
    withSt.wf = true ∧ decodeWord withSt 0xF508#16 = .ok (.ldVxSt 5)
      ∧ (⟨35, 0xF008#16, 0xF0FF#16⟩ : OpcodeRow) ∈ opcodeRows withSt ∧ 0xF508#16 &&& 0xF0FF#16 = 0xF008#16 := by decide

theorem witness_SoundTimerLoadCopies :
    withSt.wf = true ∧ decodeWord withSt 0xF508#16 = .ok (.ldVxSt 5) ∧ withSt.ldVxStLow = some 0x08#8
      ∧ 0xF508#16 = encodeXKk 0xF#4 5 0x08#8 := by decide

theorem witness_StepRunsDecodedInstruction :
    (startAt 0xFFE 0x6007).status = .running ∧ (startAt 0xFFE 0x6007).pc.toNat + 1 ≤ 0xFFF
      ∧ decodeWord (startAt 0xFFE 0x6007).cfg
          (wordOfBytes ((startAt 0xFFE 0x6007).byteAt (startAt 0xFFE 0x6007).pc.toNat)
            ((startAt 0xFFE 0x6007).byteAt ((startAt 0xFFE 0x6007).pc.toNat + 1))) = .ok (.ldImm 0 7#8) := by decide

theorem witness_FetchIsBigEndianOrFaults :
    (startAt 0xFFE 0x6007).pc.toNat < 0xFFF ∧ 0xFFF ≤ ({ State.reset with pc := 0xFFF#16 } : State).pc.toNat
      ∧ ({ State.reset with pc := 0xFFF#16 } : State).status = .running := by decide

theorem witness_UnmatchedWordHalts :
    (start 0x5121).status = .running ∧ fetchWord (start 0x5121) = .ok 0x5121#16
      ∧ ∀ row ∈ opcodeRows (start 0x5121).cfg, 0x5121#16 &&& row.mask ≠ row.pattern := by
  decide

theorem witness_FaultChangesOnlyStatus :
    (start 0x00EE).status = .running
      ∧ step (start 0x00EE) = .next { (start 0x00EE).closeLoad with status := .halted .stackUnderflow } := ⟨rfl, rfl⟩

/-- Each code's condition is met by a running state with legal parameters. -/
theorem witness_StepHaltsExactlyOnListedConditions_fetch :
    ({ State.reset with pc := 0xFFF#16 } : State).cfg.wf = true
      ∧ ({ State.reset with pc := 0xFFF#16 } : State).status = .running
      ∧ StepFaultCondition { State.reset with pc := 0xFFF#16 } .fetchOutOfRange := ⟨rfl, rfl, .inl ⟨rfl, by decide⟩⟩

theorem witness_StepHaltsExactlyOnListedConditions_decode :
    (start 0x5121).cfg.wf = true ∧ (start 0x5121).status = .running
      ∧ StepFaultCondition (start 0x5121) .invalidInstruction :=
  ⟨rfl, rfl, .inr (.inl ⟨rfl, 0x5121#16, by decide, by decide⟩)⟩

theorem witness_StepHaltsExactlyOnListedConditions_stack :
    StepFaultCondition (start 0x00EE) .stackUnderflow
      ∧ StepFaultCondition { start 0x2300 with sp := 16 } .stackOverflow :=
  ⟨.inr (.inr ⟨.ret, by decide, rfl, rfl⟩), .inr (.inr ⟨.call 0x300#12, by decide, 0x300#12, rfl, rfl⟩)⟩

theorem witness_StepHaltsExactlyOnListedConditions_index_and_key :
    StepFaultCondition { (start 0xF11E).setReg 1 0x01#8 with i := 0xFFF#16 } .invalidMemoryAddress
      ∧ StepFaultCondition ((start 0xE49E).setReg 4 0x10#8) .keyIndexOutOfRange
      ∧ StepFaultCondition ((start 0xE4A1).setReg 4 0x10#8) .keyIndexOutOfRange :=
  ⟨.inr (.inr ⟨.addI 1, by decide, 1, rfl, by decide⟩),
    .inr (.inr ⟨.skp 4, by decide, 4, .inl rfl, by decide⟩),
    .inr (.inr ⟨.sknp 4, by decide, 4, .inr rfl, by decide⟩)⟩

theorem witness_StepHaltsExactlyOnListedConditions_access :
    StepFaultCondition { start 0xD012 with i := 0xFFF#16 } .accessOutOfRange
      ∧ StepFaultCondition { start 0xF133 with i := 0xFFE#16 } .accessOutOfRange
      ∧ StepFaultCondition { start 0xF155 with i := 0xFFF#16 } .accessOutOfRange
      ∧ StepFaultCondition { start 0xF165 with i := 0xFFF#16 } .accessOutOfRange :=
  ⟨.inr (.inr ⟨.drw 0 1 2, by decide, .inl ⟨0, 1, 2, rfl, by decide, by decide⟩⟩),
    .inr (.inr ⟨.ldB 1, by decide, .inr (.inl ⟨1, rfl, by decide⟩)⟩),
    .inr (.inr ⟨.storeRegs 1, by decide, .inr (.inr (.inl ⟨1, rfl, by decide⟩))⟩),
    .inr (.inr ⟨.loadRegs 1, by decide, .inr (.inr (.inr ⟨1, rfl, by decide⟩))⟩)⟩

theorem witness_StepHaltsExactlyOnListedConditions_event :
    handle .step (start 0x00EE) = .next { (start 0x00EE).closeLoad with status := .halted .stackUnderflow } := rfl

theorem witness_HaltedEngineOnlyResets :
    (stepped (start 0x00EE)).status = .halted .stackUnderflow := by decide

theorem witness_HaltedEngineOnlyResets_load :
    handle (.loadProgram []) (stepped (start 0x00EE)) = .refused .loadNotPermitted := rfl

theorem witness_PlacedWordRunsNext :
    ({ State.reset with pc := 0xFFE#16 } : State).pc.toNat + 1 ≤ 0xFFF ∧ 0xFF65 < 65536
      ∧ decodeWord ({ State.reset with pc := 0xFFE#16 } : State).cfg (BitVec.ofNat 16 0xFF65) = .ok (.loadRegs 15) := by
  decide

theorem witness_RetPopsIntoPcOrUnderflows :
    ({ State.reset with sp := 1 } : State).sp.val = (0 : Fin 16).val + 1
      ∧ ({ State.reset with sp := 16 } : State).sp.val = (15 : Fin 16).val + 1 ∧ State.reset.sp.val = 0 := by decide

theorem witness_CallPushesNextAddressOrOverflows :
    State.reset.sp.val = (0 : Fin 16).val ∧ ({ State.reset with sp := 15 } : State).sp.val = (15 : Fin 16).val
      ∧ ({ State.reset with sp := 16 } : State).sp.val = 16 := by decide

theorem witness_NestedCallsReturnToOutermostCaller :
    State.reset.sp.val = 0 ∧ ([] : List Addr).length ≤ 16 ∧ (List.replicate 16 0x200#12).length ≤ 16
      ∧ (List.replicate 16 0x200#12).length = 16 ∧ 0 < [0x200#12].length := by decide

theorem witness_RegisterSkipsAddTwoOrFour :
    0xF#4 ≠ 0x0#4 ∧ State.reset.reg 3 = 0x00#8 ∧ State.reset.reg 3 ≠ 0x2A#8 ∧ State.reset.reg 1 = State.reset.reg 2
      ∧ (State.reset.setReg 1 7#8).reg 1 ≠ (State.reset.setReg 1 7#8).reg 2 := by decide

theorem witness_KeySkipsConsumeAllLatches :
    (State.reset.reg 4).toNat = (0 : Fin 16).val ∧ ((State.reset.setReg 4 15#8).reg 4).toNat = (15 : Fin 16).val
      ∧ 15 < ((State.reset.setReg 4 16#8).reg 4).toNat := by decide

theorem witness_AddSetsCarry :
    (1 : Reg) ≠ 15 ∧ 255 < ((State.reset.setReg 1 0x80#8).reg 1).toNat + ((State.reset.setReg 1 0x80#8).reg 1).toNat := by
  decide

theorem witness_SubtractsSetNoBorrow : (1 : Reg) ≠ 15 ∧ (State.reset.reg 2).toNat ≤ (State.reset.reg 1).toNat := by decide

theorem witness_ShiftsSetTheirFlag : (1 : Reg) ≠ 15 ∧ 128 < ((State.reset.setReg 1 0x81#8).reg 1).toNat := by decide

/-- The state after AL23's form on the reset state. -/
def afterAdd : State := (State.reset.setRegThenFlag 1 0#8 0#8).advance

theorem witness_RegistersChangeOnlyWhereNamed :
    exec (.addReg 1 2) State.reset = .next afterAdd ∧ ¬ NamesDest 3 (.addReg 1 2)
      ∧ ¬ (WritesFlag (.addReg 1 2) ∧ (3 : Reg) = 15) ∧ WritesFlag (.addReg 1 2)
      ∧ afterAdd.status = State.reset.status ∧ State.reset.status = .running :=
  ⟨rfl, by simp [NamesDest], fun h => absurd h.2 (by decide), trivial, rfl, rfl⟩

theorem witness_RandomIsMaskedFreeByte : (0x0F#8).getLsbD 4 = false := by decide

theorem witness_AddIndexSumsOrFaults :
    ({ State.reset with i := 0xFFF#16 } : State).i.toNat + (State.reset.reg 1).toNat ≤ 0xFFF
      ∧ 0xFFF < ({ State.reset with i := 0xFFF#16 } : State).i.toNat + ((State.reset.setReg 1 1#8).reg 1).toNat := by decide

theorem witness_GlyphAddressUsesLowNibble : State.reset.cfg.wf = true := by decide

/-- An engine about to step LD F, V1, its font intact. -/
theorem witness_GlyphBytesLieWhereIndexPoints :
    (start 0xF129).cfg.wf = true ∧ fetchInstr (start 0xF129) = .ok (.ldF 1)
      ∧ ∀ a, (start 0xF129).cfg.fontBase ≤ a → a < (start 0xF129).cfg.fontBase + 80 →
        (start 0xF129).byteAt a = (State.resetWith (start 0xF129).cfg).byteAt a := by
  have h : ∀ a < 0xA0, (start 0xF129).byteAt a = (State.resetWith (start 0xF129).cfg).byteAt a := by decide +kernel
  exact ⟨by decide, by decide, fun a _ ha => h a ha⟩

theorem witness_KeyWaitTakesLeastKeyOrWaits :
    (State.reset.key.set 0 true)[(0 : Fin 16)] = true
      ∧ (State.reset.key.set 15 true)[(15 : Fin 16)] = true
      ∧ (∀ j : Fin 16, j < 15 → (State.reset.key.set 15 true)[j] = false)
      ∧ (∀ k : Fin 16, State.reset.key[k] = false) := by decide

theorem witness_KeyPressIsConsumedByFirstLook : ((State.reset.setReg 4 15#8).reg 4).toNat ≤ 15 := by decide

theorem witness_BcdStoresThreeDigits :
    ({ State.reset with i := 0xFFD#16 } : State).i.toNat + 2 ≤ 0xFFF
      ∧ 0xFFF < ({ State.reset with i := 0xFFE#16 } : State).i.toNat + 2 := by decide

theorem witness_BlockStoreWritesRegisters :
    ({ State.reset with i := 0xFF0#16 } : State).i.toNat + (15 : Reg).val ≤ 0xFFF
      ∧ 0xFFF < ({ State.reset with i := 0xFF1#16 } : State).i.toNat + (15 : Reg).val := by decide

theorem witness_BlockLoadReadsRegisters :
    ({ State.reset with i := 0xFFF#16 } : State).i.toNat + (0 : Reg).val ≤ 0xFFF
      ∧ 0xFFF < ({ State.reset with i := 0xFFF#16 } : State).i.toNat + (1 : Reg).val := by decide

/-- LD Vx, [I] at the top of memory, and a memory that differs outside the byte it reads. -/
theorem witness_OnlyFourInstructionsReachMemory_read :
    (∀ a, ReadsByte (.loadRegs 0) { State.reset with i := 0xFFF#16 } a →
      Memory.read State.reset.cfg [(0xFFE, 1#8)] a = State.reset.byteAt a)
      ∧ Memory.read State.reset.cfg [(0xFFE, 1#8)] 0xFFE ≠ State.reset.byteAt 0xFFE := by
  refine ⟨fun a h => ?_, by decide⟩
  obtain rfl : a = 0xFFF := by
    have h1 : 0xFFF ≤ a := h.1
    have h2 : a ≤ 0xFFF + 0 := h.2
    omega
  decide

theorem witness_OnlyFourInstructionsReachMemory_write :
    exec (.ldB 1) { (start 0xF133).setReg 1 205#8 with i := 0x300#16 }.closeLoad
        = .next (stepped { (start 0xF133).setReg 1 205#8 with i := 0x300#16 })
      ∧ (stepped { (start 0xF133).setReg 1 205#8 with i := 0x300#16 }).byteAt 0x300 ≠ (start 0xF133).byteAt 0x300 :=
  ⟨rfl, by decide⟩

theorem witness_StoreIsSeenByNextFetch :
    ({ State.reset with i := 0x202#16 } : State).i = State.reset.pc + 2#16
      ∧ 1 ≤ (1 : Reg).val ∧ 0x202 + (15 : Reg).val ≤ 0xFFF
      ∧ ({ State.reset with i := 0x202#16 } : State).i.toNat + 2 ≤ 0xFFF := by decide

theorem witness_DrawXorsSpriteAndReportsCollision :
    (0 : Fin 16).val = 0 ∧ ({ State.reset with i := 0xFF1#16 } : State).i.toNat + (15 : Fin 16).val - 1 ≤ 0xFFF
      ∧ 0 < (15 : Fin 16).val ∧ 0xFFF < ({ State.reset with i := 0xFF2#16 } : State).i.toNat + (15 : Fin 16).val - 1 := by
  decide

/-- Both collision clauses: glyph 0 over a set corner, and over a blank display. -/
theorem witness_DrawXorsSpriteAndReportsCollision_hit :
    (fun s : State => s.pixel (Fin.ofNat 64 0) (Fin.ofNat 32 0) && (s.byteAt 0x50).getLsbD 7)
        { State.reset with i := 0x50#16, pix := setPixel blankDisplay 0 0 true } = true
      ∧ State.reset.pixel (Fin.ofNat 64 0) (Fin.ofNat 32 0) = false := by decide +kernel

theorem witness_SpritePixelsLandApart :
    14 < 15 ∧ 7 < 8 ∧ wrapCol 255 7 = wrapCol 255 7 ∧ wrapRow 255 14 = wrapRow 255 14 := by decide

theorem witness_DrawTwiceRestoresDisplay :
    (0 : Reg) ≠ 15 ∧ (1 : Reg) ≠ 15 ∧ ({ State.reset with i := 0x50#16 } : State).i.toNat + (5 : Fin 16).val - 1 ≤ 0xFFF
      ∧ ∀ r < 5, ∀ c < 8, State.reset.pixel (Fin.ofNat 64 c) (Fin.ofNat 32 r) = false := by decide +kernel

/-- No rows at the last address, and a glyph over a set pixel, where the second draw still meets a set pixel. -/
theorem witness_DrawTwiceRestoresDisplay_ends :
    (0 : Fin 16).val = 0 ∧ ({ State.reset with i := 0x50#16 } : State).i.toNat + (5 : Fin 16).val - 1 ≤ 0xFFF
      ∧ (fun t : State => !t.pixel 0 0 && t.pixel 1 0 && t.reg 15 == 1#8)
          (stepped { start 0xD015 with i := 0x50#16, pix := setPixel blankDisplay 0 0 true }) = true := by
  decide +kernel

theorem witness_OnlyClsAndDrwTouchDisplay :
    exec (.ldDtVx 5) State.reset = .next { State.reset with dt := State.reset.reg 5 }.advance
      ∧ Instr.ldDtVx 5 ≠ .cls ∧ exec .cls State.reset = .next { State.reset with pix := blankDisplay, redraw := true }.advance
      ∧ ({ State.reset with redraw := true } : State).redraw = true := ⟨rfl, by decide, rfl, rfl⟩

theorem witness_StackTimersAndLatchesHaveFewWriters :
    exec (.ldVxK 1) { State.reset with key := keys2and10 } = .next (State.reset.setReg 1 2#8).advance
      ∧ Instr.ldVxK 1 ≠ .ret ∧ keys2and10[10] = true := ⟨rfl, by decide, by decide⟩

theorem witness_StaleStackSlotsAreNeverRead :
    ∀ k : Fin 16, k.val < ({ State.reset with sp := 15 } : State).sp.val →
      (State.reset.stack.set 15 0x300#16)[k] = State.reset.stack[k] := by decide

theorem witness_ResetGivesEveryResetValue : State.reset.cfg.wf = true := by decide

theorem witness_LoadCopiesImageOrRefuses :
    State.reset.status = .running ∧ State.reset.loadable = true
      ∧ (handled (.loadProgram []) State.reset).loadable = false
      ∧ (List.replicate 3584 0#8).length ≤ 4096 - State.reset.cfg.loadAddress
      ∧ 4096 - State.reset.cfg.loadAddress < (List.replicate 3585 0#8).length := by
  rw [List.length_replicate, List.length_replicate]
  decide

/-- A key and a tick before the load; a load of no bytes; a step. -/
theorem witness_OneLoadBetweenResetAndFirstStep :
    handleAll [.reset, .setKey 7 true, .tickTimers] (stepped (start 0x00EE))
        = .next { State.reset with key := State.reset.key.set 7 true }
      ∧ .reset ∉ ([.setKey 7 true, .tickTimers] : List Event) ∧ .step ∉ ([.setKey 7 true, .tickTimers] : List Event)
      ∧ handleAll [.reset, .loadProgram []] (stepped (start 0x00EE)) = .next State.reset.closeLoad
      ∧ handleAll [.reset, .step] (stepped (start 0x00EE)) = .next (stepped State.reset) :=
  ⟨rfl, by decide, by decide, rfl, rfl⟩

theorem witness_HostWritesMemoryOnlyByLoad :
    handle (.loadProgram [0x6A#8]) State.reset = .next (handled (.loadProgram [0x6A#8]) State.reset)
      ∧ (handled (.loadProgram [0x6A#8]) State.reset).byteAt 0x200 ≠ State.reset.byteAt 0x200 := ⟨rfl, by decide⟩

theorem witness_TicksCountDownToZero :
    State.reset.status = .running ∧ (stepped (start 0x00EE)).status = .halted .stackUnderflow := by decide

theorem witness_HostWritesLatchAndAcknowledges : State.reset.status = .running := rfl

theorem witness_SelfJumpStandsStill : (start 0x1200).EndOfRun ∧ (stepped (start 0x1200)).loadable = false :=
  ⟨⟨rfl, 0x200#12, by decide, by decide⟩, by decide⟩

theorem witness_ResetSatisfiesInv : Config.default.wf = true ∧ withSt.wf = true := by decide

theorem witness_StepKeepsInv : State.reset.Inv ∧ step State.reset = .next (stepped State.reset) :=
  ⟨⟨by decide, rfl, by decide, by decide, by decide, fun _ => rfl⟩, rfl⟩

/-- The word `8FF4`, loaded after reset: a flag writer that does not fault. -/
theorem witness_ReachableStatesStayBounded :
    Reachable (handled (.loadProgram [0x8F#8, 0xF4#8]) State.reset)
      ∧ (handled (.loadProgram [0x8F#8, 0xF4#8]) State.reset).status = .running
      ∧ fetchInstr (handled (.loadProgram [0x8F#8, 0xF4#8]) State.reset) = .ok (.addReg 15 15)
      ∧ WritesFlag (.addReg 15 15)
      ∧ (stepped (handled (.loadProgram [0x8F#8, 0xF4#8]) State.reset)).status = .running := by
  refine ⟨.event (.loadProgram [0x8F#8, 0xF4#8]) State.reset _ (.start _ (by decide)) ?_, ?_, ?_, trivial, ?_⟩
  · rfl
  · decide +kernel
  · decide +kernel
  · decide +kernel

theorem witness_EveryEventKeepsInv : State.reset.Inv := ⟨by decide, rfl, by decide, by decide, by decide, fun _ => rfl⟩

end Sys2Proof.Tests
end

section
/-! The state after the event `reset` (spec 10_state.md R23, R210), and the invariant of R24: each effect keeps its
bounds, so every event keeps it, so every reachable state has it. -/

namespace Sys2Proof.Machine

/-! ### The reset content (R23) -/

/-- The font table is what reset puts at `FONT_BASE`. -/
theorem resetByte_font (c : Config) (h : c.wf = true) (j : Nat) (hj : j < 80) :
    c.fontTable[j]? = some (resetByte c (c.fontBase + j)) := by
  obtain ⟨_, _, _, hlen⟩ := Config.wf_bounds c h
  have hin : c.fontBase ≤ c.fontBase + j ∧ c.fontBase + j < c.fontBase + 80 := by omega
  have hj' : j < c.fontTable.length := by omega
  rw [resetByte, if_pos hin, Nat.add_sub_cancel_left]
  simp [hj']

theorem resetByte_outside_font (c : Config) (a : Nat) (h : ¬ (c.fontBase ≤ a ∧ a < c.fontBase + 80)) :
    resetByte c a = 0#8 := if_neg h

/-- The load address is a legal `pc` on legal parameters (R2, R23). -/
theorem toNat_resetWith_pc (c : Config) (h : c.wf = true) : (State.resetWith c).pc.toNat = c.loadAddress := by
  obtain ⟨_, _, hla, _⟩ := Config.wf_bounds c h
  rw [State.resetWith_pc, BitVec.toNat_ofNat]
  omega

theorem byteAt_resetEngine (s : State) (a : Nat) : (resetEngine s).byteAt a = resetByte s.cfg a := rfl

/-- Settles O47: the event answers `resetEngine s`, whose fields are the reset values and whose memory lists no byte, so
that every address reads as the reset content. -/
theorem resetGivesEveryResetValue : Obligations.ResetGivesEveryResetValue := by
  intro s
  have hreg : ∀ r, (resetEngine s).reg r = 0#8 := fun r => Vector.getElem_replicate r.isLt
  have hslot : ∀ k : Fin 16, (resetEngine s).stack[k] = 0#16 := fun k => Vector.getElem_replicate k.isLt
  have hkey : ∀ k : Fin 16, (resetEngine s).key[k] = false := fun k => Vector.getElem_replicate k.isLt
  have hfont (hc : s.cfg.wf = true) (j : Nat) (hj : j < 80) :
      s.cfg.fontTable[j]? = some ((resetEngine s).byteAt (s.cfg.fontBase + j)) := by
    rw [byteAt_resetEngine]
    exact resetByte_font s.cfg hc j hj
  exact ⟨resetEngine s, rfl, hreg, toNat_resetWith_pc s.cfg, rfl, rfl, hslot, rfl, rfl, hkey, getPixel_blankDisplay,
    rfl, rfl, rfl, hfont, resetByte_outside_font s.cfg⟩

/-! ### The bounds an effect keeps (R12, R13, R103) -/

theorem toNat_advance_pc_le (s : State) (h : s.pc.toNat + 1 ≤ 0xFFF) : s.advance.pc.toNat ≤ 0x1000 := by
  rw [State.advance_pc]
  bv_omega

theorem toNat_skipIf_pc_le (s : State) (c : Bool) (h : s.pc.toNat + 1 ≤ 0xFFF) :
    (s.skipIf c).pc.toNat ≤ 0x1002 := by
  rw [State.skipIf_pc]
  split <;> bv_omega

theorem toNat_addrWord_le (nnn : Addr) : (addrWord nnn).toNat ≤ 0xFFF := by
  have := nnn.isLt
  simp only [addrWord, BitVec.toNat_setWidth]
  omega

/-- The highest target is that of JP V0, nnn: the unreduced sum (R104). -/
theorem toNat_addrSum_le (nnn : Addr) (b : Byte) : (BitVec.ofNat 16 (nnn.toNat + b.toNat)).toNat ≤ 0x10FE := by
  have := nnn.isLt
  have := b.isLt
  rw [BitVec.toNat_ofNat]
  omega

/-- From an address that can be fetched, and with bounded return addresses, `pc` goes no further than JP V0, nnn takes
it (R12). -/
theorem effect_pc_le (s : State) (i : Instr) (hpc : s.pc.toNat + 1 ≤ 0xFFF)
    (hret : ∀ k : Fin 16, (s.stack[k]).toNat ≤ 0x1000) : (effect s i).pc.toNat ≤ 0x10FE := by
  have hskip (t : State) (c : Bool) (ht : t.pc = s.pc) : (t.skipIf c).pc.toNat ≤ 0x10FE := by
    have := toNat_skipIf_pc_le t c (ht ▸ hpc)
    omega
  have hadvance (t : State) (ht : t.pc = s.pc) : t.advance.pc.toNat ≤ 0x10FE := by
    have := toNat_advance_pc_le t (ht ▸ hpc)
    omega
  cases i
  case ret =>
    have := hret ⟨s.sp.val - 1, by omega⟩
    exact Nat.le_trans this (by decide)
  case jp nnn => exact Nat.le_trans (toNat_addrWord_le nnn) (by decide)
  case call nnn => exact Nat.le_trans (toNat_addrWord_le nnn) (by decide)
  case jpV0 nnn => exact toNat_addrSum_le nnn (s.reg 0)
  case ldVxK x =>
    cases hk : s.firstKey with
    | none => simp only [effect, hk]; omega
    | some k => simpa only [effect, hk] using hadvance (s.clearKeys.setReg x (BitVec.ofNat 8 k)) rfl
  case seImm | sneImm | seReg | sneReg | skp | sknp => exact hskip _ _ rfl
  all_goals exact hadvance _ rfl

/-- Where the check finds no fault, what is written to `I` is an address of memory (R13, R175). -/
theorem effect_i_le (s : State) (i : Instr) (hf : faultOf s i = none) (hi : s.i.toNat ≤ 0xFFF) :
    (effect s i).i.toNat ≤ 0xFFF := by
  have hwritten (n : Nat) (hn : n ≤ 0xFFF) : (BitVec.ofNat 16 n).toNat ≤ 0xFFF := by
    rw [BitVec.toNat_ofNat]
    omega
  cases i
  case ldI nnn => exact hwritten _ (Nat.le_of_lt_succ nnn.isLt)
  case addI x => exact hwritten _ (by simpa [faultOf] using hf)
  case ldF x => exact hwritten _ (by simpa [faultOf] using hf)
  case ldVxK x => cases hk : s.firstKey <;> simpa [effect, hk] using hi
  all_goals exact hi

/-- The one address pushed is that after a CALL, at most `0x1000` (R103). -/
theorem effect_stack_le (s : State) (i : Instr) (hpc : s.pc.toNat + 1 ≤ 0xFFF)
    (hret : ∀ k : Fin 16, (s.stack[k]).toNat ≤ 0x1000) (k : Fin 16) : ((effect s i).stack[k]).toNat ≤ 0x1000 := by
  cases i
  case call nnn =>
    have hpush : (s.pc + 2#16).toNat ≤ 0x1000 := toNat_advance_pc_le s hpc
    simp only [effect, Fin.getElem_fin, Vector.getElem_setIfInBounds]
    split
    · exact hpush
    · exact hret k
  case ldVxK x => cases hk : s.firstKey <;> simpa [effect, hk] using hret k
  all_goals exact hret k

/-- Where the check finds no fault, the bytes stored lie inside memory (R48), so the list stays canonical. -/
theorem effect_mem_wf (s : State) (i : Instr) (hf : faultOf s i = none) (hm : Memory.wf s.cfg s.mem = true) :
    Memory.wf s.cfg (effect s i).mem = true := by
  cases i
  case ldB x =>
    have hfit : s.i.toNat + 3 ≤ 0x1000 := by simpa [faultOf] using hf
    exact Memory.wf_writeBytes s.cfg (bcdDigits (s.reg x)) s.mem s.i.toNat hm hfit
  case storeRegs x =>
    have hfit : s.i.toNat + (x.val + 1) ≤ 0x1000 := by simpa [faultOf] using hf
    exact Memory.wf_writeBytes s.cfg (s.regsUpTo x) s.mem s.i.toNat hm (by rwa [State.length_regsUpTo])
  case ldVxK x => cases hk : s.firstKey <;> simpa [effect, hk] using hm
  all_goals exact hm

/-! ### The invariant (R24) -/

/-- The invariant speaks of no register, no timer, no latch, no pixel, and neither of `SP` nor of `REDRAW`. -/
theorem State.Inv.of_unread {s : State} (h : s.Inv) (v : Vector Byte 16) (sp : Fin 17) (dt st : Byte)
    (key : Vector Bool 16) (pix : Display) (redraw : Bool) (draws : Nat) :
    ({ s with v := v, sp := sp, dt := dt, st := st, key := key, pix := pix, redraw := redraw, draws := draws }
      : State).Inv :=
  { h with }

theorem resetWith_inv (c : Config) (h : c.wf = true) : (State.resetWith c).Inv where
  cfgLegal := h
  memCanonical := Memory.wf_resetWith c
  indexInMemory := Nat.zero_le _
  returnsBounded k := by simp
  pcBounded := by
    obtain ⟨_, _, hla, _⟩ := Config.wf_bounds c h
    rw [toNat_resetWith_pc c h]
    omega
  loadableRuns _ := rfl

theorem State.Inv.closeLoad {s : State} (h : s.Inv) : s.closeLoad.Inv :=
  { h with loadableRuns := fun hl => Bool.noConfusion hl }

/-- Taking a fault keeps the invariant, once no load is permitted. -/
theorem State.Inv.halt {s : State} (h : s.Inv) (hl : s.loadable = false) (f : Fault) :
    ({ s with status := .halted f } : State).Inv :=
  { h with loadableRuns := fun hl' => Bool.noConfusion (hl.symm.trans hl') }

theorem effect_keeps_inv (s : State) (i : Instr) (h : s.Inv) (hpc : s.pc.toNat + 1 ≤ 0xFFF)
    (hf : faultOf s i = none) : (effect s i).Inv where
  cfgLegal := by rw [effect_cfg]; exact h.cfgLegal
  memCanonical := by rw [effect_cfg]; exact effect_mem_wf s i hf h.memCanonical
  indexInMemory := effect_i_le s i hf h.indexInMemory
  returnsBounded := effect_stack_le s i hpc h.returnsBounded
  pcBounded := effect_pc_le s i hpc h.returnsBounded
  loadableRuns hl := by
    rw [effect_loadable] at hl
    rw [effect_status]
    exact h.loadableRuns hl

/-- An instruction is fetched from inside memory (R44). -/
theorem fetchInstr_pc_le (s : State) (i : Instr) (h : fetchInstr s = .ok i) : s.pc.toNat + 1 ≤ 0xFFF := by
  obtain ⟨_, e⟩ | ⟨_, _, e⟩ | ⟨hpc, _⟩ := fetchInstr_cases s
  · rw [e] at h; cases h
  · rw [e] at h; cases h
  · exact hpc

theorem step_keeps_inv (s t : State) (h : s.Inv) (hs : step s = .next t) : t.Inv := by
  obtain ⟨_, e⟩ | ⟨_, f, _, e⟩ | ⟨_, i, hi, e⟩ := step_cases s
  · rw [e] at hs; cases hs
    exact h
  · rw [e] at hs; cases hs
    exact h.closeLoad.halt rfl f
  · rw [e] at hs
    obtain ⟨f, _, rfl⟩ | ⟨hf, rfl⟩ := exec_cases i s.closeLoad t hs
    · exact h.closeLoad.halt rfl f
    · exact effect_keeps_inv s.closeLoad i h.closeLoad (fetchInstr_pc_le s i hi) hf

theorem loadProgram_keeps_inv (bytes : List Byte) (s t : State) (h : s.Inv) (hs : loadProgram bytes s = .next t) :
    t.Inv := by
  obtain ⟨_, e⟩ | ⟨_, _, e⟩ | ⟨_, hlen, e⟩ := loadProgram_cases bytes s
  · rw [e] at hs; cases hs
  · rw [e] at hs; cases hs
  · rw [e] at hs; cases hs
    obtain ⟨_, _, hla, _⟩ := Config.wf_bounds s.cfg h.cfgLegal
    have hmem := Memory.wf_writeBytes s.cfg bytes s.mem s.cfg.loadAddress h.memCanonical (by omega)
    exact { h.closeLoad with memCanonical := hmem }

/-- Every event an engine answers with a next state keeps the invariant. -/
theorem handle_keeps_inv (e : Event) (s t : State) (h : s.Inv) (hs : handle e s = .next t) : t.Inv := by
  have hdelay : (tickDelay s).Inv := whenRunning_induction State.Inv s _ h (h.of_unread ..)
  cases e with
  | loadProgram bytes => exact loadProgram_keeps_inv bytes s t h hs
  | step => exact step_keeps_inv s t h hs
  | reset => cases hs; exact (resetWith_inv s.cfg h.cfgLegal).of_unread ..
  | tickDelay => cases hs; exact hdelay
  | tickSound => cases hs; exact whenRunning_induction State.Inv s _ h (h.of_unread ..)
  | tickTimers => cases hs; exact whenRunning_induction State.Inv (tickDelay s) _ hdelay (hdelay.of_unread ..)
  | setKey k b => cases hs; exact whenRunning_induction State.Inv s _ h (h.of_unread ..)
  | ackRedraw => cases hs; exact whenRunning_induction State.Inv s _ h (h.of_unread ..)

theorem reachable_inv (s : State) (h : Reachable s) : s.Inv := by
  induction h with
  | start c hc => exact resetWith_inv c hc
  | event e s t _ hs ih => exact handle_keeps_inv e s t ih hs

/-! ### The flag (R11) -/

/-- An operation of R11's table leaves in VF the byte of a truth value, whatever its destination. -/
theorem effect_regVF_of_writesFlag (s : State) (i : Instr) (h : WritesFlag i) :
    ∃ c : Bool, (effect s i).reg regVF = b2n c := by
  have hflag (x : Reg) (b : Byte) (c : Bool) : (s.setRegThenFlag x b (b2n c)).advance.reg regVF = b2n c := by
    rw [State.reg_advance, State.reg_setRegThenFlag, if_pos rfl]
  cases i
  case addReg | sub | shr | subn | shl => exact ⟨_, hflag _ _ _⟩
  case drw => exact ⟨_, State.reg_setReg_same _ _ _⟩
  all_goals exact h.elim

/-- A step that leaves the engine running had the effect of the instruction it fetched. -/
theorem step_eq_effect_of_running (s t : State) (i : Instr) (hr : s.status = .running) (hi : fetchInstr s = .ok i)
    (hs : step s = .next t) (ht : t.status = .running) : t = effect s.closeLoad i := by
  rw [step_exec s i hr hi] at hs
  obtain ⟨f, _, rfl⟩ | ⟨_, rfl⟩ := exec_cases i s.closeLoad t hs
  · cases ht
  · rfl

theorem b2n_eq_zero_or_one (c : Bool) : b2n c = 0#8 ∨ b2n c = 1#8 := by
  cases c
  · exact .inl rfl
  · exact .inr rfl

/-- Settles O56: `SP`, the registers and the timers are bounded by their types, `I` and `pc` by the invariant every
event keeps; VF is read off the effect of the step. -/
theorem reachableStatesStayBounded : Obligations.ReachableStatesStayBounded := by
  intro s hs
  have hinv := reachable_inv s hs
  have hbyte (b : Byte) : b.toNat ≤ 255 := Nat.le_of_lt_succ b.isLt
  refine ⟨Nat.le_of_lt_succ s.sp.isLt, hinv.indexInMemory, fun r => hbyte (s.reg r), hbyte s.dt, hbyte s.st,
    hinv.pcBounded, ?_⟩
  intro i t hr hi hw hstep ht
  obtain ⟨c, hc⟩ := effect_regVF_of_writesFlag s.closeLoad i hw
  rw [step_eq_effect_of_running s t i hr hi hstep ht]
  exact hc ▸ b2n_eq_zero_or_one c

end Sys2Proof.Machine
end

section
/-! The accesses to memory (spec 20_memory.md): the fetch (R44, R45), and the table of R53, each effect taken once for
the bytes it writes and once for the bytes it reads. -/

namespace Sys2Proof.Machine

/-! ### The fetch (R44) -/

/-- The first byte is the more significant (R45). -/
theorem toNat_wordOfBytes (hi lo : Byte) : (wordOfBytes hi lo).toNat = hi.toNat * 256 + lo.toNat := by
  rw [wordOfBytes, BitVec.toNat_append, ← Nat.shiftLeft_add_eq_or_of_lt lo.isLt, Nat.shiftLeft_eq]

/-- Past the last whole word the fetch faults before anything is decoded. -/
theorem fetchInstr_out_of_range (s : State) (h : 0xFFF < s.pc.toNat + 1) :
    fetchInstr s = .error .fetchOutOfRange := by
  obtain ⟨_, e⟩ | ⟨hpc, _⟩ | ⟨hpc, _⟩ := fetchInstr_cases s
  · exact e
  · omega
  · omega

/-- The fault of a fetch or of a decoding changes `STATUS` (R171) and the model's own record (log entry 5). -/
theorem onlyChanges_closeLoad_halt (s : State) (f : Fault) :
    OnlyChanges s { s.closeLoad with status := .halted f } (fun p => p = .status ∨ p = .loadable) := by
  intro p hp
  obtain ⟨hstatus, hloadable⟩ := not_or.1 hp
  have hhalt : Part.same s.closeLoad { s.closeLoad with status := .halted f } p :=
    onlyChanges_halt s.closeLoad f p hstatus
  cases p
  case loadable => exact absurd rfl hloadable
  all_goals exact hhalt

/-- Settles O6: inside memory the fetch appends the two bytes; from `0xFFF` on it faults, which the step takes. -/
theorem fetchIsBigEndianOrFaults : Obligations.FetchIsBigEndianOrFaults := by
  intro s
  refine ⟨fun hpc => ⟨_, fetchWord_ok s hpc, toNat_wordOfBytes _ _⟩, fun hpc hr => ?_⟩
  have hfetch := fetchInstr_out_of_range s (Nat.lt_succ_of_le hpc)
  exact ⟨_, step_fault s .fetchOutOfRange hr hfetch, rfl, onlyChanges_closeLoad_halt s .fetchOutOfRange⟩

/-! ### What an instruction writes (R53) -/

/-- A byte that a store changes lies among those it stores to. -/
theorem in_range_of_byteAt_writeBytes_ne (s : State) (base : Nat) (bytes : List Byte) (a : Nat)
    (h : State.byteAt { s with mem := Memory.writeBytes s.cfg s.mem base bytes }.advance a ≠ s.byteAt a) :
    base ≤ a ∧ a < base + bytes.length := by
  by_contra hout
  exact h ((Memory.read_writeBytes s.cfg bytes s.mem base a).trans (if_neg hout))

/-- A byte that an effect changes lies in the range R53 gives for LD B or LD [I], Vx. -/
theorem effect_writes_only (s : State) (i : Instr) (a : Nat) (h : (effect s i).byteAt a ≠ s.byteAt a) :
    (∃ x, i = .ldB x ∧ s.i.toNat ≤ a ∧ a ≤ s.i.toNat + 2) ∨
    (∃ x, i = .storeRegs x ∧ s.i.toNat ≤ a ∧ a ≤ s.i.toNat + x.val) := by
  cases i
  case ldB x =>
    obtain ⟨hlo, hhi⟩ := in_range_of_byteAt_writeBytes_ne s s.i.toNat (bcdDigits (s.reg x)) a h
    exact .inl ⟨x, rfl, hlo, Nat.le_of_lt_succ hhi⟩
  case storeRegs x =>
    obtain ⟨hlo, hhi⟩ := in_range_of_byteAt_writeBytes_ne s s.i.toNat (s.regsUpTo x) a h
    rw [State.length_regsUpTo] at hhi
    exact .inr ⟨x, rfl, hlo, Nat.le_of_lt_succ hhi⟩
  case ldVxK x => cases hk : s.firstKey <;> simp [effect, hk] at h
  all_goals exact absurd rfl h

/-! ### What an instruction reads (R53) -/

/-- No check reads memory (R48 speaks of addresses). -/
theorem faultOf_withMem (s : State) (m : Memory) (i : Instr) : faultOf { s with mem := m } i = faultOf s i := by
  cases i <;> rfl

/-- A block read from a memory that holds the same bytes there. -/
theorem bytesAt_withMem (s : State) (m : Memory) (base n : Nat)
    (h : ∀ a, base ≤ a → a < base + n → Memory.read s.cfg m a = s.byteAt a) :
    State.bytesAt { s with mem := m } base n = s.bytesAt base n := by
  refine List.map_congr_left fun k hk => ?_
  have hlt : k < n := List.mem_range.1 hk
  exact h (base + k) (by omega) (by omega)

/-- The effect takes nothing from memory but the bytes R53 says the instruction reads. -/
theorem effect_withMem (s : State) (m : Memory) (i : Instr)
    (h : ∀ a, ReadsByte i s a → Memory.read s.cfg m a = s.byteAt a) :
    { effect { s with mem := m } i with mem := (effect s i).mem } = effect s i := by
  cases i
  case drw x y n =>
    have hsprite := bytesAt_withMem s m s.i.toNat n.val fun a hlo hhi => h a ⟨hlo, hhi⟩
    simp only [effect, hsprite]
    rfl
  case loadRegs x =>
    have hblock := bytesAt_withMem s m s.i.toNat (x.val + 1) fun a hlo hhi => h a ⟨hlo, Nat.le_of_lt_succ hhi⟩
    simp only [effect, hblock]
    rfl
  case ldVxK x =>
    have hkey : State.firstKey { s with mem := m } = s.firstKey := rfl
    cases hk : s.firstKey with
    | none => simp only [effect, hkey, hk]
    | some k => simp only [effect, hkey, hk]; rfl
  all_goals rfl

/-- Settles O38: a fault writes no memory and no check reads it; an effect writes and reads as R53's table says. -/
theorem onlyFourInstructionsReachMemory : Obligations.OnlyFourInstructionsReachMemory := by
  refine ⟨fun i s t a hexec hne => ?_, fun i s m hsame => ?_⟩
  · obtain ⟨f, _, rfl⟩ | ⟨_, rfl⟩ := exec_cases i s t hexec
    · exact absurd rfl hne
    · exact effect_writes_only s i a hne
  · have hcheck := faultOf_withMem s m i
    cases hf : faultOf s i with
    | some f => exact ⟨_, _, exec_of_fault i s f hf, exec_of_fault i _ f (hcheck.trans hf), rfl⟩
    | none =>
      exact ⟨_, _, exec_of_no_fault i s hf, exec_of_no_fault i _ (hcheck.trans hf), effect_withMem s m i hsame⟩

end Sys2Proof.Machine
end

section
/-! The rows of R66 read on the fields of a word: a row's mask compares exactly the fields that the decoder's arm for
its instruction tests, so that the decoder and the table pick the same row. -/

namespace Sys2Proof

/-! ### From the decoder to the table -/

/-- A row of R66 with this number stands in the table of this engine and accepts the word. -/
def MatchesRow (c : Config) (w : Word) (r : Nat) : Prop :=
  ∃ row ∈ opcodeRows c, row.number = r ∧ w &&& row.mask = row.pattern

theorem matchesRow_of_getElem? {c : Config} {w m mask : Word} {r : Nat}
    (hrow : opcodeTable[r - 1]? = some ⟨r, m, mask⟩) (h : w &&& mask = m) : MatchesRow c w r :=
  ⟨_, List.mem_append_left _ (List.mem_of_getElem? hrow), rfl, h⟩

theorem matchesRow_of_fieldOp {c : Config} {w : Word} {op : BitVec 4} {r : Nat} (hop : fieldOp w = op)
    (hrow : opcodeTable[r - 1]? = some ⟨r, encodeNnn op 0#12, 0xF000#16⟩) : MatchesRow c w r :=
  matchesRow_of_getElem? hrow ((mask_op w op).2 hop)

theorem matchesRow_of_fieldN {c : Config} {w : Word} {op n : BitVec 4} {r : Nat} (hop : fieldOp w = op)
    (hn : fieldN w = n) (hrow : opcodeTable[r - 1]? = some ⟨r, encodeXYN op 0 0 n, 0xF00F#16⟩) : MatchesRow c w r :=
  matchesRow_of_getElem? hrow ((mask_op_n w op n).2 ⟨hop, hn⟩)

theorem matchesRow_of_fieldKk {c : Config} {w : Word} {op : BitVec 4} {kk : Byte} {r : Nat} (hop : fieldOp w = op)
    (hkk : fieldKk w = kk) (hrow : opcodeTable[r - 1]? = some ⟨r, encodeXKk op 0 kk, 0xF0FF#16⟩) :
    MatchesRow c w r :=
  matchesRow_of_getElem? hrow ((mask_op_kk w op kk).2 ⟨hop, hkk⟩)

theorem matchesRow_of_fieldNnn {c : Config} {w : Word} {op : BitVec 4} {nnn : Addr} {r : Nat} (hop : fieldOp w = op)
    (hnnn : fieldNnn w = nnn) (hrow : opcodeTable[r - 1]? = some ⟨r, encodeNnn op nnn, 0xFFFF#16⟩) :
    MatchesRow c w r := by
  refine matchesRow_of_getElem? hrow ?_
  calc w &&& 0xFFFF#16 = w := BitVec.and_allOnes
    _ = encodeNnn op nnn := by rw [← hop, ← hnnn, encodeNnn_fields]

/-- The column "match" of row 35, assembled as the encoder does. -/
theorem pattern_ldVxSt (b : Byte) : 0xF0#8 ++ b = encodeXKk 0xF#4 0 b :=
  BitVec.append_assoc (x₁ := 0xF#4) (x₂ := 0#4) (x₃ := b)

theorem matchesRow_of_ldVxStLow {c : Config} {w : Word} (hop : fieldOp w = 0xF#4)
    (hlow : c.ldVxStLow = some (fieldKk w)) : MatchesRow c w 35 := by
  refine ⟨⟨35, 0xF0#8 ++ fieldKk w, 0xF0FF#16⟩, ?_, rfl, ?_⟩
  · simp [opcodeRows, hlow]
  · rw [pattern_ldVxSt]
    exact (mask_op_kk w 0xF#4 (fieldKk w)).2 ⟨hop, rfl⟩

theorem matchesRow_of_decodeGroup0 {c : Config} {w : Word} {i : Instr} (hop : fieldOp w = 0x0#4)
    (h : decodeGroup0 (fieldNnn w) = .ok i) : MatchesRow c w i.row := by
  unfold decodeGroup0 at h
  split_ifs at h with hcls hret <;> cases h
  · exact matchesRow_of_fieldNnn hop hcls rfl
  · exact matchesRow_of_fieldNnn hop hret rfl

theorem matchesRow_of_decodeGroup8 {c : Config} {w : Word} {x y : Reg} {i : Instr} (hop : fieldOp w = 0x8#4)
    (h : decodeGroup8 x y (fieldN w) = .ok i) : MatchesRow c w i.row := by
  unfold decodeGroup8 at h
  split_ifs at h <;> cases h
  all_goals
    rename_i hn
    exact matchesRow_of_fieldN hop hn rfl

theorem matchesRow_of_decodeGroupE {c : Config} {w : Word} {x : Reg} {i : Instr} (hop : fieldOp w = 0xE#4)
    (h : decodeGroupE x (fieldKk w) = .ok i) : MatchesRow c w i.row := by
  unfold decodeGroupE at h
  split_ifs at h with hskp hsknp <;> cases h
  · exact matchesRow_of_fieldKk hop hskp rfl
  · exact matchesRow_of_fieldKk hop hsknp rfl

theorem matchesRow_of_decodeGroupF {c : Config} {w : Word} {x : Reg} {i : Instr} (hop : fieldOp w = 0xF#4)
    (h : decodeGroupF c x (fieldKk w) = .ok i) : MatchesRow c w i.row := by
  unfold decodeGroupF at h
  split_ifs at h <;> cases h
  all_goals rename_i hkk
  on_goal 10 => exact matchesRow_of_ldVxStLow hop hkk
  all_goals exact matchesRow_of_fieldKk hop hkk rfl

/-- Each arm of the decoder tests the primary opcode, and in a group the field that selects in it (R65). -/
theorem matchesRow_of_decodeWord {c : Config} {w : Word} {i : Instr} (h : decodeWord c w = .ok i) :
    MatchesRow c w i.row := by
  unfold decodeWord decodeFields at h
  split at h
  case h_1 hop => exact matchesRow_of_decodeGroup0 hop h
  case h_9 hop => exact matchesRow_of_decodeGroup8 hop h
  case h_15 hop => exact matchesRow_of_decodeGroupE hop h
  case h_16 =>
    have hop : fieldOp w = 0xF#4 := by
      simp only [imp_false] at *
      bv_omega
    exact matchesRow_of_decodeGroupF hop h
  case h_6 hop | h_10 hop =>
    split_ifs at h with hn
    cases h
    exact matchesRow_of_fieldN hop hn rfl
  all_goals
    rename_i hop
    cases h
    exact matchesRow_of_fieldOp hop rfl

/-! ### From the table to the decoder

One lemma per mask. Its first argument says what the decoder answers on the compared fields, whatever the other fields
hold; for a row written out it is computed, so it is filled in by default. -/

/-- The word decodes to an instruction of the row with this number. -/
def DecodesToRow (c : Config) (w : Word) (r : Nat) : Prop := ∃ i, decodeWord c w = .ok i ∧ i.row = r

theorem DecodesToRow.of_mask_op {c : Config} {w m : Word} {r : Nat}
    (hfields : ∀ x y n kk nnn, ∃ i, decodeFields c (fieldOp m) x y n kk nnn = .ok i ∧ i.row = r := by
      exact fun _ _ _ _ _ => ⟨_, rfl, rfl⟩)
    (h : w &&& 0xF000#16 = m) : DecodesToRow c w r := by
  rw [← h, (mask_op w _).2 rfl, fieldOp_encodeNnn] at hfields
  exact hfields _ _ _ _ _

theorem DecodesToRow.of_mask_op_n {c : Config} {w m : Word} {r : Nat}
    (hfields : ∀ x y kk nnn, ∃ i, decodeFields c (fieldOp m) x y (fieldN m) kk nnn = .ok i ∧ i.row = r := by
      exact fun _ _ _ _ => ⟨_, rfl, rfl⟩)
    (h : w &&& 0xF00F#16 = m) : DecodesToRow c w r := by
  rw [← h, (mask_op_n w _ _).2 ⟨rfl, rfl⟩, fieldOp_encodeXYN, fieldN_encodeXYN] at hfields
  exact hfields _ _ _ _

theorem DecodesToRow.of_mask_op_kk {c : Config} {w m : Word} {r : Nat}
    (hfields : ∀ x y n nnn, ∃ i, decodeFields c (fieldOp m) x y n (fieldKk m) nnn = .ok i ∧ i.row = r := by
      exact fun _ _ _ _ => ⟨_, rfl, rfl⟩)
    (h : w &&& 0xF0FF#16 = m) : DecodesToRow c w r := by
  rw [← h, (mask_op_kk w _ _).2 ⟨rfl, rfl⟩, fieldOp_encodeXKk, fieldKk_encodeXKk] at hfields
  exact hfields _ _ _ _

theorem DecodesToRow.of_full_mask {c : Config} {w m : Word} {r : Nat}
    (hm : DecodesToRow c m r := by exact ⟨_, rfl, rfl⟩) (h : w &&& 0xFFFF#16 = m) : DecodesToRow c w r := by
  have hw : w = m := BitVec.and_allOnes.symm.trans h
  exact hw ▸ hm

/-- Rows 1 to 34 in order, each by its mask. -/
theorem decodesToRow_of_opcodeTable {c : Config} {w : Word} :
    ∀ row ∈ opcodeTable, w &&& row.mask = row.pattern → DecodesToRow c w row.number := by
  refine List.forall_iff_forall_mem.1 (show opcodeTable.Forall _ from ⟨
    .of_full_mask, .of_full_mask, .of_mask_op, .of_mask_op, .of_mask_op, .of_mask_op,
    .of_mask_op_n, .of_mask_op, .of_mask_op,
    .of_mask_op_n, .of_mask_op_n, .of_mask_op_n, .of_mask_op_n, .of_mask_op_n,
    .of_mask_op_n, .of_mask_op_n, .of_mask_op_n, .of_mask_op_n, .of_mask_op_n,
    .of_mask_op, .of_mask_op, .of_mask_op, .of_mask_op, .of_mask_op_kk, .of_mask_op_kk,
    .of_mask_op_kk, .of_mask_op_kk, .of_mask_op_kk, .of_mask_op_kk, .of_mask_op_kk,
    .of_mask_op_kk, .of_mask_op_kk, .of_mask_op_kk, .of_mask_op_kk⟩)

/-- The byte of row 35 is none in use (R5), so its words decode as the encoder's do. -/
theorem decodesToRow_of_ldVxStLow {c : Config} {w : Word} {b : Byte} (hc : c.wf = true) (hb : c.ldVxStLow = some b)
    (h : w &&& 0xF0FF#16 = 0xF0#8 ++ b) : DecodesToRow c w 35 := by
  obtain ⟨hop, hkk⟩ := (mask_op_kk w 0xF#4 b).1 (h.trans (pattern_ldVxSt b))
  have hw : encodeXKk 0xF#4 (fieldX w) b = w := by rw [← hop, ← hkk, encodeXKk_fields]
  obtain ⟨w', henc, hdec⟩ := Laws.RoundTrip.ldVxSt (fieldX w) c hc (by simp [Instr.wf, hb])
  obtain rfl : w = w' := by simpa [encodeWord, hb, hw] using henc
  exact ⟨_, hdec, rfl⟩

/-- Settles O3: one way by the decoder's arms, the other by the rows of the table, row 35 apart because its byte is a
parameter. -/
theorem decodeFollowsOpcodeRows : Obligations.DecodeFollowsOpcodeRows := by
  refine fun c hc => ⟨fun w i h => matchesRow_of_decodeWord h, fun w row hrow h => ?_⟩
  obtain htable | h35 := List.mem_append.1 hrow
  · exact decodesToRow_of_opcodeTable row htable h
  · obtain ⟨b, hb, rfl⟩ := List.mem_map.1 h35
    exact decodesToRow_of_ldVxStLow hc (Option.mem_toList.1 hb) h

end Sys2Proof
end

section
/-! The control-flow instructions (spec 40_control_flow.md): each meaning read off its effect (`exec_of_no_fault`) or
its fault (`exec_of_fault`), each family of skips stated once for the update its instructions share. -/

namespace Sys2Proof.Machine

/-! ### CLS (R100) -/

/-- Blanking the display and the advance change `pc`, `REDRAW` and pixels. -/
theorem onlyChanges_blankDisplay_advance (s : State) :
    OnlyChanges s { s with pix := blankDisplay, redraw := true }.advance
      (fun p => p = .pc ∨ p = .redraw ∨ ∃ col row, p = .pixel col row) := by
  intro p hp
  cases p
  case pc => exact absurd (.inl rfl) hp
  case redraw => exact absurd (.inr (.inl rfl)) hp
  case pixel col row => exact absurd (.inr (.inr ⟨col, row, rfl⟩)) hp
  all_goals rfl

/-- Settles O13: CLS has no check, and its effect is a blank display with `REDRAW` set. -/
theorem clsBlanksDisplayAndRaisesRedraw : Obligations.ClsBlanksDisplayAndRaisesRedraw :=
  ⟨fun _ => rfl, fun s =>
    ⟨_, exec_of_no_fault .cls s rfl, getPixel_blankDisplay, rfl, rfl, onlyChanges_blankDisplay_advance s⟩⟩

/-! ### RET and CALL (R101, R103) -/

/-- The popped slot keeps its value (R14). -/
theorem onlyChanges_effect_ret (s : State) : OnlyChanges s (effect s .ret) (fun p => p = .pc ∨ p = .sp) := by
  intro p hp
  cases p
  case pc => exact absurd (.inl rfl) hp
  case sp => exact absurd (.inr rfl) hp
  all_goals rfl

/-- Settles O14: the slot below `SP` is slot `k`, since `SP` is `k + 1`; at 0 the check of RET finds the fault. -/
theorem retPopsIntoPcOrUnderflows : Obligations.RetPopsIntoPcOrUnderflows := by
  refine ⟨fun _ => rfl, fun s k hsp => ?_, fun s hsp => exec_of_fault .ret s .stackUnderflow (if_pos hsp)⟩
  have hnofault : faultOf s .ret = none := if_neg (by omega)
  have hpc : (effect s .ret).pc = s.stack[k] := by simp [effect, hsp]
  have hcount : (effect s .ret).sp.val = k.val := by simp [effect, hsp]
  exact ⟨_, exec_of_no_fault .ret s hnofault, hpc, hcount, onlyChanges_effect_ret s⟩

/-- The only slot written is the one `SP` numbers. -/
theorem onlyChanges_effect_call (s : State) (nnn : Addr) (k : Fin 16) (hsp : s.sp.val = k.val) :
    OnlyChanges s (effect s (.call nnn)) (fun p => p = .pc ∨ p = .sp ∨ p = .slot k) := by
  intro p hp
  cases p
  case pc => exact absurd (.inl rfl) hp
  case sp => exact absurd (.inr (.inl rfl)) hp
  case slot j =>
    have hne : s.sp.val ≠ j.val := fun e => hp (.inr (.inr (congrArg Part.slot (Fin.ext (e.symm.trans hsp)))))
    exact Vector.getElem_setIfInBounds_ne j.isLt hne
  all_goals rfl

/-- The address field is zero-extended (R62). -/
theorem toNat_addrWord (nnn : Addr) : (addrWord nnn).toNat = nnn.toNat :=
  BitVec.toNat_setWidth_of_le (by decide)

/-- Settles O15: below 16 the return address goes to the slot `SP` numbers; at 16 the check of CALL finds the fault. -/
theorem callPushesNextAddressOrOverflows : Obligations.CallPushesNextAddressOrOverflows := by
  refine fun nnn => ⟨hasWord_encodeNnn 0x2#4 nnn _ fun _ _ _ _ _ => rfl, fun s k hsp => ?_,
    fun s hsp => exec_of_fault (.call nnn) s .stackOverflow (if_pos hsp)⟩
  have hnofault : faultOf s (.call nnn) = none := if_neg (by omega)
  have hslot : (effect s (.call nnn)).stack[k] = s.pc + 2#16 := by simp [effect, hsp]
  have hcount : (effect s (.call nnn)).sp.val = k.val + 1 := by
    simp only [effect, Fin.val_ofNat]
    omega
  exact ⟨_, exec_of_no_fault (.call nnn) s hnofault, hslot, hcount, toNat_addrWord nnn,
    onlyChanges_effect_call s nnn k hsp⟩

/-! ### The jumps (R102, R104) -/

/-- The highest sum, `0xFFF + 0xFF`, fits the 16 bits of `pc`, so it is not reduced. -/
theorem toNat_addrSum (nnn : Addr) (b : Byte) :
    (BitVec.ofNat 16 (nnn.toNat + b.toNat)).toNat = nnn.toNat + b.toNat := by
  have := nnn.isLt
  have := b.isLt
  rw [BitVec.toNat_ofNat]
  omega

/-- Settles O17: both are jumps without a check, to a target that fits `pc`. -/
theorem jumpsSetOnlyPc : Obligations.JumpsSetOnlyPc := fun nnn s =>
  ⟨hasWord_encodeNnn 0x1#4 nnn _ fun _ _ _ _ _ => rfl, hasWord_encodeNnn 0xB#4 nnn _ fun _ _ _ _ _ => rfl,
    ⟨_, exec_of_no_fault (.jp nnn) s rfl, toNat_addrWord nnn, onlyChanges_jumpTo s _⟩,
    ⟨_, exec_of_no_fault (.jpV0 nnn) s rfl, toNat_addrSum nnn (s.reg 0), onlyChanges_jumpTo s _⟩⟩

/-! ### The skips on registers (R105 to R108) -/

/-- The end of every skip on registers: `P` is what the condition being true says, `Q` what its being false says. -/
theorem skipIf_adds_four_or_two {i : Instr} {s : State} {c : Bool} {P Q : Prop}
    (hexec : exec i s = .next (s.skipIf c)) (hP : P → c = true) (hQ : Q → c = false) :
    ∃ t, exec i s = .next t ∧ OnlyChanges s t (fun p => p = .pc) ∧
      (P → t.pc = s.pc + 4#16) ∧ (Q → t.pc = s.pc + 2#16) := by
  refine ⟨s.skipIf c, hexec, onlyChanges_skipIf s c, fun h => ?_, fun h => ?_⟩
  · rw [State.skipIf_pc, if_pos (hP h)]
  · rw [State.skipIf_pc, hQ h]
    rfl

/-- A word of group 5 or 9 whose trailing nibble is not 0 is illegal (R67). -/
theorem decodeWord_register_skip_nonzero_nibble (c : Config) (x y : Reg) {n : BitVec 4} (hn : n ≠ 0x0#4) :
    decodeWord c (encodeXYN 0x5#4 x y n) = .error .illegalGroup5 ∧
    decodeWord c (encodeXYN 0x9#4 x y n) = .error .illegalGroup9 :=
  ⟨(decodeWord_encodeXYN c 0x5#4 x y n).trans (if_neg hn), (decodeWord_encodeXYN c 0x9#4 x y n).trans (if_neg hn)⟩

/-- Settles O18: none of the four has a check, and each is a skip on its own comparison. -/
theorem registerSkipsAddTwoOrFour : Obligations.RegisterSkipsAddTwoOrFour := fun x y kk s =>
  ⟨hasWord_encodeXKk 0x3#4 x kk _ fun _ _ _ _ => rfl, hasWord_encodeXKk 0x4#4 x kk _ fun _ _ _ _ => rfl,
    hasWord_encodeXYN 0x5#4 x y _ _ fun _ _ _ => rfl, hasWord_encodeXYN 0x9#4 x y _ _ fun _ _ _ => rfl,
    fun _ c hn => decodeWord_register_skip_nonzero_nibble c x y hn,
    skipIf_adds_four_or_two (exec_of_no_fault (.seImm x kk) s rfl) beq_iff_eq.2 beq_eq_false_iff_ne.2,
    skipIf_adds_four_or_two (exec_of_no_fault (.sneImm x kk) s rfl) bne_iff_ne.2 bne_eq_false_iff_eq.2,
    skipIf_adds_four_or_two (exec_of_no_fault (.seReg x y) s rfl) beq_iff_eq.2 beq_eq_false_iff_ne.2,
    skipIf_adds_four_or_two (exec_of_no_fault (.sneReg x y) s rfl) bne_iff_ne.2 bne_eq_false_iff_eq.2⟩

/-! ### The skips on keys (R109, R110) -/

/-- Consuming the latches and a skip change `pc` and latches. -/
theorem onlyChanges_clearKeys_skipIf (s : State) (c : Bool) :
    OnlyChanges s (s.clearKeys.skipIf c) (fun p => p = .pc ∨ ∃ j, p = .key j) := by
  intro p hp
  cases p
  case pc => exact absurd (.inl rfl) hp
  case key j => exact absurd (.inr ⟨j, rfl⟩) hp
  all_goals rfl

/-- The end of a skip on keys: whatever the condition, all sixteen latches are cleared. -/
theorem clearKeys_skipIf_consumes {i : Instr} {s : State} {c : Bool} {w : Word}
    (hexec : exec i s = .next (s.clearKeys.skipIf c)) (hpc : (if c then s.pc + 4#16 else s.pc + 2#16) = w) :
    ∃ t, exec i s = .next t ∧ (∀ j : Fin 16, t.key[j] = false) ∧ t.pc = w ∧
      OnlyChanges s t (fun p => p = .pc ∨ ∃ j, p = .key j) :=
  ⟨_, hexec, fun j => Vector.getElem_replicate j.isLt, hpc, onlyChanges_clearKeys_skipIf s c⟩

/-- Settles O19: both look at the latch before the clear; above 15 the check of either finds the fault. -/
theorem keySkipsConsumeAllLatches : Obligations.KeySkipsConsumeAllLatches := by
  refine fun x s => ⟨hasWord_encodeXKk 0xE#4 x 0x9E#8 _ fun _ _ _ _ => rfl,
    hasWord_encodeXKk 0xE#4 x 0xA1#8 _ fun _ _ _ _ => rfl, fun k hk => ?_, fun hout =>
    ⟨exec_of_fault (.skp x) s _ (if_pos hout), exec_of_fault (.sknp x) s _ (if_pos hout)⟩⟩
  have hin : ¬ 15 < (s.reg x).toNat := by omega
  have hlatch : s.keyAt (s.reg x).toNat = s.key[k] := (congrArg s.keyAt hk).trans (s.keyAt_fin k)
  constructor
  · exact clearKeys_skipIf_consumes (exec_of_no_fault (.skp x) s (if_neg hin)) (by rw [hlatch])
  · refine clearKeys_skipIf_consumes (exec_of_no_fault (.sknp x) s (if_neg hin)) ?_
    rw [hlatch]
    cases s.key[k] <;> rfl

end Sys2Proof.Machine
end

section
/-! The register, arithmetic and logic instructions and LD I (spec 41_register_arithmetic.md): none has a check that can
fire, so each meaning is its effect, and every effect but LD I's is one of two updates, a result alone or a result with
its flag. Each update is described once; the settling proofs add what the result and the flag are as numbers. -/

namespace Sys2Proof.Machine

/-! ### A result without a flag (R120 to R125) -/

/-- What an instruction that only puts a result into `V[x]` leaves. -/
theorem exec_setReg_advance {i : Instr} {s : State} {x : Reg} {b : Byte}
    (hexec : exec i s = .next (s.setReg x b).advance) :
    ∃ t, exec i s = .next t ∧ t.reg x = b ∧ t.pc = s.pc + 2#16 ∧ OnlyChanges s t (fun p => p = .pc ∨ p = .reg x) :=
  ⟨_, hexec, State.reg_setReg_same s x b, rfl, onlyChanges_setReg_advance s x b⟩

/-- The same for a result that is known bit by bit. -/
theorem exec_setReg_advance_bitwise {i : Instr} {s : State} {x : Reg} {b : Byte} {bit : Nat → Bool}
    (hexec : exec i s = .next (s.setReg x b).advance) (hbits : ∀ j, b.getLsbD j = bit j) :
    ∃ t, exec i s = .next t ∧ t.pc = s.pc + 2#16 ∧ (∀ j, (t.reg x).getLsbD j = bit j) ∧
      OnlyChanges s t (fun p => p = .pc ∨ p = .reg x) := by
  obtain ⟨t, ht, hx, hpc, hframe⟩ := exec_setReg_advance hexec
  exact ⟨t, ht, hpc, hx ▸ hbits, hframe⟩

/-- Settles O20: both put a result and no flag, and an 8-bit sum is the sum modulo 256. -/
theorem immediateOpsWriteOnlyTheirRegister : Obligations.ImmediateOpsWriteOnlyTheirRegister := by
  refine fun x kk s => ⟨hasWord_encodeXKk 0x6#4 x kk _ fun _ _ _ _ => rfl,
    hasWord_encodeXKk 0x7#4 x kk _ fun _ _ _ _ => rfl,
    exec_setReg_advance (exec_of_no_fault (.ldImm x kk) s rfl), ?_⟩
  obtain ⟨t, ht, hx, hpc, hframe⟩ := exec_setReg_advance (exec_of_no_fault (.addImm x kk) s rfl)
  exact ⟨t, ht, hx ▸ BitVec.toNat_add _ _, hpc, hframe⟩

/-- Settles O21: all four put a result and no flag; the bits of the bitwise results are the library's. -/
theorem copyAndBitwiseWriteOnlyTheirRegister : Obligations.CopyAndBitwiseWriteOnlyTheirRegister := fun x y s =>
  ⟨hasWord_encodeXYN 0x8#4 x y _ _ fun _ _ _ => rfl, hasWord_encodeXYN 0x8#4 x y _ _ fun _ _ _ => rfl,
    hasWord_encodeXYN 0x8#4 x y _ _ fun _ _ _ => rfl, hasWord_encodeXYN 0x8#4 x y _ _ fun _ _ _ => rfl,
    exec_setReg_advance (exec_of_no_fault (.ldReg x y) s rfl),
    exec_setReg_advance_bitwise (exec_of_no_fault (.orReg x y) s rfl) fun _ => BitVec.getLsbD_or,
    exec_setReg_advance_bitwise (exec_of_no_fault (.andReg x y) s rfl) fun _ => BitVec.getLsbD_and,
    exec_setReg_advance_bitwise (exec_of_no_fault (.xorReg x y) s rfl) fun _ => BitVec.getLsbD_xor⟩

/-! ### A result with its flag (R126 to R130) -/

/-- What an instruction that puts a result into `V[x]` and then a flag into VF leaves: where `x` is 15 the flag stands
(R70). -/
theorem exec_setRegThenFlag_advance {i : Instr} {s : State} {x : Reg} {b f : Byte}
    (hexec : exec i s = .next (s.setRegThenFlag x b f).advance) :
    ∃ t, exec i s = .next t ∧ t.pc = s.pc + 2#16 ∧ (x ≠ 15 → t.reg x = b) ∧ t.reg 15 = f ∧
      OnlyChanges s t (fun p => p = .pc ∨ p = .reg x ∨ p = .reg 15) :=
  have hread := fun q => State.reg_setRegThenFlag s x q b f
  ⟨_, hexec, rfl, fun hx => (hread x).trans ((if_neg hx).trans (if_pos rfl)), (hread 15).trans (if_pos rfl),
    onlyChanges_setRegThenFlag_advance s x b f⟩

theorem b2n_decide (p : Prop) [Decidable p] : b2n (decide p) = if p then 1#8 else 0#8 := by
  simp [b2n]

theorem flagCarry_eq (a b : Byte) : flagCarry a b = if 255 < a.toNat + b.toNat then 1#8 else 0#8 :=
  b2n_decide _

theorem flagNoBorrow_eq (a b : Byte) : flagNoBorrow a b = if b.toNat ≤ a.toNat then 1#8 else 0#8 :=
  b2n_decide _

theorem flagShiftLeft_eq (a : Byte) : flagShiftLeft a = if 128 < a.toNat then 1#8 else 0#8 :=
  b2n_decide _

/-- Bit 0 is the remainder by 2. -/
theorem toNat_flagShiftRight (a : Byte) : (flagShiftRight a).toNat = a.toNat % 2 := by
  have hbit : a.getLsbD 0 = decide (a.toNat % 2 = 1) := Nat.testBit_zero _
  rw [flagShiftRight, hbit, b2n_decide]
  split <;> simp only [BitVec.toNat_ofNat] <;> omega

/-- An 8-bit difference is the integer difference modulo 256, negative or not. -/
theorem toNat_sub_eq_emod (a b : Byte) : ((a - b).toNat : Int) = ((a.toNat : Int) - b.toNat) % 256 := by
  have := a.isLt
  have := b.isLt
  rw [BitVec.toNat_sub]
  omega

theorem toNat_shiftRight_one (a : Byte) : (a >>> 1).toNat = a.toNat / 2 := by
  rw [BitVec.toNat_ushiftRight, Nat.shiftRight_eq_div_pow]

theorem toNat_shiftLeft_one (a : Byte) : (a <<< 1).toNat = 2 * a.toNat % 256 := by
  rw [BitVec.toNat_shiftLeft, Nat.shiftLeft_eq, Nat.mul_comm]

/-- Settles O22: a result with its flag; the 8-bit sum is the sum modulo 256. -/
theorem addSetsCarry : Obligations.AddSetsCarry := by
  refine fun x y s => ⟨hasWord_encodeXYN 0x8#4 x y _ _ fun _ _ _ => rfl, ?_⟩
  obtain ⟨t, ht, hpc, hx, hflag, hframe⟩ := exec_setRegThenFlag_advance (exec_of_no_fault (.addReg x y) s rfl)
  exact ⟨t, ht, hpc, fun h => hx h ▸ BitVec.toNat_add _ _, hflag.trans (flagCarry_eq _ _), hframe⟩

/-- An instruction that puts the difference `a - b` and its flag: SUB and SUBN, the operands in either order. -/
theorem exec_difference {i : Instr} {s : State} {x : Reg} {a b : Byte}
    (hexec : exec i s = .next (s.setRegThenFlag x (a - b) (flagNoBorrow a b)).advance) :
    ∃ t, exec i s = .next t ∧ t.pc = s.pc + 2#16 ∧
      (x ≠ 15 → ((t.reg x).toNat : Int) = ((a.toNat : Int) - b.toNat) % 256) ∧
      t.reg 15 = (if b.toNat ≤ a.toNat then 1#8 else 0#8) ∧
      OnlyChanges s t (fun p => p = .pc ∨ p = .reg x ∨ p = .reg 15) := by
  obtain ⟨t, ht, hpc, hx, hflag, hframe⟩ := exec_setRegThenFlag_advance hexec
  exact ⟨t, ht, hpc, fun h => hx h ▸ toNat_sub_eq_emod a b, hflag.trans (flagNoBorrow_eq a b), hframe⟩

/-- Settles O23: SUB and SUBN are the same difference with the operands exchanged. -/
theorem subtractsSetNoBorrow : Obligations.SubtractsSetNoBorrow := fun x y s =>
  ⟨hasWord_encodeXYN 0x8#4 x y _ _ fun _ _ _ => rfl, hasWord_encodeXYN 0x8#4 x y _ _ fun _ _ _ => rfl,
    exec_difference (exec_of_no_fault (.sub x y) s rfl), exec_difference (exec_of_no_fault (.subn x y) s rfl)⟩

/-- Settles O24: both are a result with its flag, and neither effect mentions `y`. -/
theorem shiftsSetTheirFlag : Obligations.ShiftsSetTheirFlag := by
  refine fun x y s => ⟨hasWord_encodeXYN 0x8#4 x y _ _ fun _ _ _ => rfl,
    hasWord_encodeXYN 0x8#4 x y _ _ fun _ _ _ => rfl, ?_, ?_⟩
  · obtain ⟨t, ht, hpc, hx, hflag, hframe⟩ := exec_setRegThenFlag_advance (exec_of_no_fault (.shr x y) s rfl)
    exact ⟨t, ht, hpc, fun h => hx h ▸ toNat_shiftRight_one _, hflag ▸ toNat_flagShiftRight _, hframe⟩
  · obtain ⟨t, ht, hpc, hx, hflag, hframe⟩ := exec_setRegThenFlag_advance (exec_of_no_fault (.shl x y) s rfl)
    exact ⟨t, ht, hpc, fun h => hx h ▸ toNat_shiftLeft_one _, hflag.trans (flagShiftLeft_eq _), hframe⟩

/-! ### LD I (R131) -/

/-- Setting `I` and the advance change `pc` and `I`. -/
theorem onlyChanges_setI_advance (s : State) (w : Word) :
    OnlyChanges s { s with i := w }.advance (fun p => p = .pc ∨ p = .index) := by
  intro p hp
  cases p
  case pc => exact absurd (.inl rfl) hp
  case index => exact absurd (.inr rfl) hp
  all_goals rfl

/-- Settles O27: a 12-bit operand passes the check of `I` and fits its 16 bits. -/
theorem loadIndexTakesAnyAddress : Obligations.LoadIndexTakesAnyAddress := fun nnn s =>
  have hindex : (BitVec.ofNat 16 nnn.toNat).toNat = nnn.toNat :=
    (congrArg BitVec.toNat (BitVec.ofNat_toNat 16 nnn)).trans (toNat_addrWord nnn)
  ⟨hasWord_encodeNnn 0xA#4 nnn _ fun _ _ _ _ _ => rfl, _, exec_of_no_fault (.ldI nnn) s rfl, hindex, rfl,
    onlyChanges_setI_advance s _⟩

end Sys2Proof.Machine
end

section
/-! The display (spec 42_display.md): what DRW leaves, read off its effect. Each part is stated on the sprite's bytes in
memory, from what `drawSprite_spec` says of a sprite given as a list. -/

namespace Sys2Proof.Machine

/-! ### The effect of DRW (R141 to R143) -/

/-- What a draw does to the framebuffer, for the `n` bytes from `I` up. -/
theorem drawSprite_bytesAt_spec (s : State) (ox oy : Nat) (n : Fin 16) :
    (∀ r < n.val, ∀ c < 8,
      getPixel (drawSprite ox oy (s.bytesAt s.i.toNat n.val) s.pix).1 (wrapCol ox c) (wrapRow oy r)
        = (s.pixel (wrapCol ox c) (wrapRow oy r) ^^ spriteBit (s.byteAt (s.i.toNat + r)) c)) ∧
    (∀ col row, (∀ r < n.val, ∀ c < 8, ¬ (col = wrapCol ox c ∧ row = wrapRow oy r)) →
      getPixel (drawSprite ox oy (s.bytesAt s.i.toNat n.val) s.pix).1 col row = s.pixel col row) ∧
    ((drawSprite ox oy (s.bytesAt s.i.toNat n.val) s.pix).2 = true ↔ ∃ r < n.val, ∃ c < 8,
      s.pixel (wrapCol ox c) (wrapRow oy r) = true ∧ spriteBit (s.byteAt (s.i.toNat + r)) c = true) := by
  have hbyte (r : Nat) (hr : r < n.val) := s.getD_bytesAt s.i.toNat n.val r hr
  have hlen : (s.bytesAt s.i.toNat n.val).length ≤ 32 := by
    rw [State.length_bytesAt]
    omega
  obtain ⟨hpixel, hother, hhit⟩ := drawSprite_spec ox oy (s.bytesAt s.i.toNat n.val) s.pix hlen
  rw [State.length_bytesAt] at hpixel hother hhit
  refine ⟨fun r hr c hc => ?_, hother, hhit.trans ?_⟩
  · rw [hpixel r hr c hc, hbyte r hr, State.pixel]
  · refine exists_congr fun r => and_congr_right fun hr => ?_
    rw [hbyte r hr]
    rfl

theorem effect_drw_pixel (s : State) (x y : Reg) (n : Fin 16) (r : Nat) (hr : r < n.val) (c : Nat) (hc : c < 8) :
    (effect s (.drw x y n)).pixel (wrapCol (s.reg x).toNat c) (wrapRow (s.reg y).toNat r)
      = (s.pixel (wrapCol (s.reg x).toNat c) (wrapRow (s.reg y).toNat r)
          ^^ spriteBit (s.byteAt (s.i.toNat + r)) c) :=
  have ⟨hpixel, _, _⟩ := drawSprite_bytesAt_spec s _ _ n
  hpixel r hr c hc

theorem effect_drw_pixel_outside (s : State) (x y : Reg) (n : Fin 16) (col : Fin 64) (row : Fin 32)
    (h : ∀ r < n.val, ∀ c < 8, ¬ (col = wrapCol (s.reg x).toNat c ∧ row = wrapRow (s.reg y).toNat r)) :
    (effect s (.drw x y n)).pixel col row = s.pixel col row :=
  have ⟨_, hother, _⟩ := drawSprite_bytesAt_spec s _ _ n
  hother col row h

theorem b2n_eq_one_iff (c : Bool) : b2n c = 1#8 ↔ c = true := by
  cases c <;> decide

/-- The flag is 1 exactly where a set bit met a set pixel (R143). -/
theorem effect_drw_regVF_eq_one_iff (s : State) (x y : Reg) (n : Fin 16) :
    (effect s (.drw x y n)).reg regVF = 1#8 ↔ ∃ r < n.val, ∃ c < 8,
      s.pixel (wrapCol (s.reg x).toNat c) (wrapRow (s.reg y).toNat r) = true
        ∧ spriteBit (s.byteAt (s.i.toNat + r)) c = true := by
  have hflag : (effect s (.drw x y n)).reg regVF = b2n _ := State.reg_setReg_same _ _ _
  obtain ⟨_, _, hhit⟩ := drawSprite_bytesAt_spec s (s.reg x).toNat (s.reg y).toNat n
  rw [hflag, b2n_eq_one_iff]
  exact hhit

/-- Without a collision the flag is 0: it is a truth value, and not 1. -/
theorem effect_drw_regVF_eq_zero (s : State) (x y : Reg) (n : Fin 16)
    (h : ∀ r < n.val, ∀ c < 8,
      s.pixel (wrapCol (s.reg x).toNat c) (wrapRow (s.reg y).toNat r) = false
        ∨ spriteBit (s.byteAt (s.i.toNat + r)) c = false) :
    (effect s (.drw x y n)).reg regVF = 0#8 := by
  obtain ⟨b, hb⟩ := effect_regVF_of_writesFlag s (.drw x y n) trivial
  have hone : (effect s (.drw x y n)).reg regVF ≠ 1#8 := by
    rw [Ne, effect_drw_regVF_eq_one_iff]
    rintro ⟨r, hr, c, hc, hset, hbit⟩
    obtain hclear | hclear := h r hr c hc
    · exact Bool.noConfusion (hset.symm.trans hclear)
    · exact Bool.noConfusion (hbit.symm.trans hclear)
  rw [hb] at hone ⊢
  exact (b2n_eq_zero_or_one b).resolve_right hone

/-- DRW changes `pc`, `REDRAW`, VF and the sprite's place on the display. -/
theorem onlyChanges_effect_drw (s : State) (x y : Reg) (n : Fin 16) :
    OnlyChanges s (effect s (.drw x y n)) (fun p => p = .pc ∨ p = .redraw ∨ p = .reg 15 ∨
      ∃ r < n.val, ∃ c < 8, p = .pixel (wrapCol (s.reg x).toNat c) (wrapRow (s.reg y).toNat r)) := by
  intro p hp
  simp only [not_or] at hp
  obtain ⟨hpc, hredraw, hvf, hplace⟩ := hp
  cases p
  case pc => exact absurd rfl hpc
  case redraw => exact absurd rfl hredraw
  case reg q =>
    have hq : q ≠ regVF := fun e => hvf (congrArg Part.reg e)
    exact (State.reg_setReg _ regVF q _).trans (if_neg hq)
  case pixel col row =>
    refine effect_drw_pixel_outside s x y n col row fun r hr c hc ⟨hcol, hrow⟩ => hplace ⟨r, hr, c, hc, ?_⟩
    rw [hcol, hrow]
  all_goals rfl

/-- Settles O40: in range, or with no rows, DRW has its effect, whose parts stand above; else its check finds the
fault. -/
theorem drawXorsSpriteAndReportsCollision : Obligations.DrawXorsSpriteAndReportsCollision := by
  refine fun x y n s => ⟨hasWord_encodeXYN 0xD#4 x y _ _ fun _ _ _ => rfl, fun hfit => ?_,
    fun hn hout => exec_of_fault (.drw x y n) s .accessOutOfRange (if_pos ⟨hn, by omega⟩)⟩
  have hnofault : faultOf s (.drw x y n) = none := if_neg (by omega)
  exact ⟨_, exec_of_no_fault (.drw x y n) s hnofault, effect_drw_pixel s x y n,
    (effect_drw_regVF_eq_one_iff s x y n).2, effect_drw_regVF_eq_zero s x y n, rfl, rfl,
    onlyChanges_effect_drw s x y n⟩

end Sys2Proof.Machine
end

section
/-! Input, timers, the index register and the memory blocks (spec 43_input_timers_memory.md): each meaning read off its
effect or its fault. An update that two instructions share is described once, by what it leaves in its destination and
by its frame. -/

namespace Sys2Proof.Machine

/-! ### Writers of the index register (R155, R156) -/

/-- What an instruction that only sets `I`, to an address inside memory, leaves. -/
theorem exec_setI_advance {i : Instr} {s : State} {n : Nat}
    (hexec : exec i s = .next { s with i := BitVec.ofNat 16 n }.advance) (hn : n ≤ 0xFFF) :
    ∃ t, exec i s = .next t ∧ t.i.toNat = n ∧ t.pc = s.pc + 2#16 ∧
      OnlyChanges s t (fun p => p = .pc ∨ p = .index) :=
  ⟨_, hexec, (BitVec.toNat_ofNat n 16).trans (Nat.mod_eq_of_lt (by omega)), rfl, onlyChanges_setI_advance s _⟩

/-- Settles O28: the sum is checked as a natural number, so a sum that passes fits `I`, and one that does not is the
fault. -/
theorem addIndexSumsOrFaults : Obligations.AddIndexSumsOrFaults := fun x s =>
  ⟨hasWord_encodeXKk 0xF#4 x 0x1E#8 _ fun _ _ _ _ => rfl,
    fun hfit => exec_setI_advance (exec_of_no_fault (.addI x) s (if_neg (Nat.not_lt.2 hfit))) hfit,
    fun hout => exec_of_fault (.addI x) s .invalidMemoryAddress (if_pos hout)⟩

/-- Settles O29: on legal parameters every glyph lies inside memory, so the check never fires. -/
theorem glyphAddressUsesLowNibble : Obligations.GlyphAddressUsesLowNibble := by
  intro x s hlegal
  have hfit := glyphAddress_le s.cfg (s.reg x) hlegal
  obtain ⟨t, ht, hi, hpc, hframe⟩ :=
    exec_setI_advance (exec_of_no_fault (.ldF x) s (if_neg (Nat.not_lt.2 hfit))) hfit
  rw [glyphAddress, toNat_and_low_nibble] at hi
  exact ⟨hasWord_encodeXKk 0xF#4 x 0x29#8 _ fun _ _ _ _ => rfl, t, ht, hi, hpc, hframe⟩

/-! ### Timers (R150, R151, R153, R154) -/

/-- Setting the delay timer and the advance change `pc` and that timer. -/
theorem onlyChanges_setDt_advance (s : State) (b : Byte) :
    OnlyChanges s { s with dt := b }.advance (fun p => p = .pc ∨ p = .delay) := by
  intro p hp
  cases p
  case pc => exact absurd (.inl rfl) hp
  case delay => exact absurd (.inr rfl) hp
  all_goals rfl

/-- Setting the sound timer and the advance change `pc` and that timer. -/
theorem onlyChanges_setSt_advance (s : State) (b : Byte) :
    OnlyChanges s { s with st := b }.advance (fun p => p = .pc ∨ p = .sound) := by
  intro p hp
  cases p
  case pc => exact absurd (.inl rfl) hp
  case sound => exact absurd (.inr rfl) hp
  all_goals rfl

/-- The tone is on as long as the sound timer is not 0 (R192). -/
theorem tone_iff (s : State) : s.tone = true ↔ s.st ≠ 0#8 :=
  decide_eq_true_iff.trans (Nat.pos_iff_ne_zero.trans (not_congr (BitVec.toNat_inj (y := 0#8))))

/-- Settles O31: none of the three has a check; the tone follows the timer just written. -/
theorem timerMovesCopy : Obligations.TimerMovesCopy := fun x s =>
  ⟨hasWord_encodeXKk 0xF#4 x 0x07#8 _ fun _ _ _ _ => rfl, hasWord_encodeXKk 0xF#4 x 0x15#8 _ fun _ _ _ _ => rfl,
    hasWord_encodeXKk 0xF#4 x 0x18#8 _ fun _ _ _ _ => rfl,
    exec_setReg_advance (exec_of_no_fault (.ldVxDt x) s rfl),
    ⟨_, exec_of_no_fault (.ldDtVx x) s rfl, rfl, rfl, onlyChanges_setDt_advance s _⟩,
    ⟨_, exec_of_no_fault (.ldStVx x) s rfl, rfl, tone_iff _, rfl, onlyChanges_setSt_advance s _⟩⟩

/-- With the parameter present, `Fxb` is LD Vx, ST: none of the nine selectors before it takes the word (R5). -/
theorem decodeWord_ldVxSt {c : Config} {b : Byte} (hlegal : c.wf = true) (hlow : c.ldVxStLow = some b) (x : Reg) :
    decodeWord c (encodeXKk 0xF#4 x b) = .ok (.ldVxSt x) := by
  obtain ⟨w, hencode, hdecode⟩ := Laws.RoundTrip.ldVxSt x c hlegal (Option.isSome_of_eq_some hlow)
  obtain rfl : encodeXKk 0xF#4 x b = w := by simpa [encodeWord, hlow] using hencode
  exact hdecode

/-- A word in row 35 of R66 has the primary opcode `F` and the low byte the parameter gives. -/
theorem fields_of_matchesRow_ldVxSt {c : Config} {w : Word} (h : MatchesRow c w 35) :
    c.ldVxStLow = some (fieldKk w) ∧ fieldOp w = 0xF#4 := by
  obtain ⟨row, hmem, hnumber, hmask⟩ := h
  obtain hrow | hrow := List.mem_append.1 hmem
  · have hfixed : ∀ r ∈ opcodeTable, r.number ≠ 35 := by decide
    exact absurd hnumber (hfixed row hrow)
  · obtain ⟨b, hb, rfl⟩ := List.mem_map.1 hrow
    rw [pattern_ldVxSt] at hmask
    obtain ⟨hop, rfl⟩ := (mask_op_kk w 0xF#4 b).1 hmask
    exact ⟨Option.mem_toList.1 hb, hop⟩

/-- Settles O32: a word that decodes to LD Vx, ST stands in row 35, so it is `Fxb` for the parameter `b` and its own
register field, and that word decodes back to the same register. -/
theorem soundTimerLoadCopies : Obligations.SoundTimerLoadCopies := by
  refine fun x => ⟨fun c w hlegal => ⟨fun hdecode => ?_, ?_⟩,
    fun s => exec_setReg_advance (exec_of_no_fault (.ldVxSt x) s rfl)⟩
  · obtain ⟨hlow, hop⟩ := fields_of_matchesRow_ldVxSt (matchesRow_of_decodeWord hdecode)
    have hword : encodeXKk 0xF#4 (fieldX w) (fieldKk w) = w := hop ▸ encodeXKk_fields w
    have hx := decodeWord_ldVxSt hlegal hlow (fieldX w)
    rw [hword, hdecode] at hx
    cases hx
    exact ⟨_, hlow, hword.symm⟩
  · rintro ⟨b, hlow, rfl⟩
    exact decodeWord_ldVxSt hlegal hlow x

/-! ### The wait for a key (R152) -/

/-- Consuming the latches, a register result and the advance change `pc`, that register and latches. -/
theorem onlyChanges_clearKeys_setReg_advance (s : State) (x : Reg) (b : Byte) :
    OnlyChanges s (s.clearKeys.setReg x b).advance (fun p => p = .pc ∨ p = .reg x ∨ ∃ j, p = .key j) := by
  intro p hp
  simp only [not_or] at hp
  obtain ⟨hpc, hreg, hkey⟩ := hp
  cases p
  case key j => exact absurd ⟨j, rfl⟩ hkey
  all_goals exact onlyChanges_setReg_advance s.clearKeys x b _ (not_or.2 ⟨hpc, hreg⟩)

/-- The latches speak of keys by number, the statements by `Fin 16`. -/
theorem firstKey_eq_some_of_least (s : State) (k : Fin 16) (hk : s.key[k] = true)
    (hleast : ∀ j : Fin 16, j < k → s.key[j] = false) : s.firstKey = some k.val :=
  (s.firstKey_eq_some k).2 ⟨k.isLt, (s.keyAt_fin k).trans hk, fun j hj =>
    (s.keyAt_fin ⟨j, hj.trans k.isLt⟩).trans (hleast _ hj)⟩

theorem firstKey_eq_none_of_clear (s : State) (h : ∀ k : Fin 16, s.key[k] = false) : s.firstKey = none :=
  s.firstKey_eq_none.2 fun k hk => (s.keyAt_fin ⟨k, hk⟩).trans (h _)

/-- The effect of LD Vx, K once its look at the latches is known. -/
theorem effect_ldVxK_some {s : State} {k : Nat} (h : s.firstKey = some k) (x : Reg) :
    effect s (.ldVxK x) = (s.clearKeys.setReg x (BitVec.ofNat 8 k)).advance := by
  simp only [effect, h]

theorem effect_ldVxK_none {s : State} (h : s.firstKey = none) (x : Reg) : effect s (.ldVxK x) = s := by
  simp only [effect, h]

/-- Settles O33: LD Vx, K has no check, and its effect turns on the least latched key. -/
theorem keyWaitTakesLeastKeyOrWaits : Obligations.KeyWaitTakesLeastKeyOrWaits := by
  refine fun x s => ⟨hasWord_encodeXKk 0xF#4 x 0x0A#8 _ fun _ _ _ _ => rfl, fun k hk hleast => ?_, fun hclear => ?_⟩
  · have hexec := exec_of_no_fault (.ldVxK x) s rfl
    rw [effect_ldVxK_some (firstKey_eq_some_of_least s k hk hleast)] at hexec
    refine ⟨_, hexec, ?_, fun j => Vector.getElem_replicate j.isLt, rfl, onlyChanges_clearKeys_setReg_advance s x _⟩
    rw [State.reg_advance, State.reg_setReg_same]
    exact (BitVec.toNat_ofNat k.val 8).trans (Nat.mod_eq_of_lt (by omega))
  · rw [exec_of_no_fault (.ldVxK x) s rfl, effect_ldVxK_none (firstKey_eq_none_of_clear s hclear)]

/-! ### Memory blocks (R157 to R159) -/

/-- What an instruction that only stores bytes from `I` up leaves: `I` itself is outside the frame's exceptions. -/
theorem exec_writeBytes_advance {i : Instr} {s : State} {bytes : List Byte}
    (hexec : exec i s = .next { s with mem := Memory.writeBytes s.cfg s.mem s.i.toNat bytes }.advance) :
    ∃ t, exec i s = .next t ∧ (∀ k < bytes.length, t.byteAt (s.i.toNat + k) = bytes.getD k 0#8) ∧
      t.pc = s.pc + 2#16 ∧
      OnlyChanges s t (fun p => p = .pc ∨ ∃ k < bytes.length, p = .byte (s.i.toNat + k)) :=
  ⟨_, hexec, byteAt_writeBytes_advance s s.i.toNat bytes, rfl, onlyChanges_writeBytes_advance s s.i.toNat bytes⟩

@[simp] theorem length_bcdDigits (a : Byte) : (bcdDigits a).length = 3 := rfl

/-- Each decimal digit fits its byte. -/
theorem toNat_bcdDigits (a : Byte) :
    ((bcdDigits a).getD 0 0#8).toNat = a.toNat / 100 ∧ ((bcdDigits a).getD 1 0#8).toNat = a.toNat / 10 % 10 ∧
      ((bcdDigits a).getD 2 0#8).toNat = a.toNat % 10 := by
  have := a.isLt
  simp only [bcdDigits, List.getD_cons_zero, List.getD_cons_succ, BitVec.toNat_ofNat]
  omega

/-- Settles O35: the three bytes are stored from `I` up as one range, whose check is the statement's bound. -/
theorem bcdStoresThreeDigits : Obligations.BcdStoresThreeDigits := by
  refine fun x s => ⟨hasWord_encodeXKk 0xF#4 x 0x33#8 _ fun _ _ _ _ => rfl, fun hfit => ?_,
    fun hout => exec_of_fault (.ldB x) s .accessOutOfRange (if_pos (by omega))⟩
  obtain ⟨t, ht, hbytes, hpc, hframe⟩ := exec_writeBytes_advance (exec_of_no_fault (.ldB x) s (if_neg (by omega)))
  rw [length_bcdDigits] at hbytes hframe
  obtain ⟨hhundreds, htens, hones⟩ := toNat_bcdDigits (s.reg x)
  exact ⟨t, ht, hbytes 0 (by decide) ▸ hhundreds, hbytes 1 (by decide) ▸ htens,
    hbytes 2 (by decide) ▸ hones, hpc, hframe⟩

/-- Settles O36: the registers `V0..Vx` are stored from `I` up as one range of `x + 1` bytes. -/
theorem blockStoreWritesRegisters : Obligations.BlockStoreWritesRegisters := by
  refine fun x s => ⟨hasWord_encodeXKk 0xF#4 x 0x55#8 _ fun _ _ _ _ => rfl, fun hfit => ?_,
    fun hout => exec_of_fault (.storeRegs x) s .accessOutOfRange (if_pos (by omega))⟩
  obtain ⟨t, ht, hbytes, hpc, hframe⟩ :=
    exec_writeBytes_advance (exec_of_no_fault (.storeRegs x) s (if_neg (by omega)))
  simp only [State.length_regsUpTo, Nat.lt_add_one_iff] at hbytes hframe
  exact ⟨t, ht, fun k hk => (hbytes k hk).trans (s.getD_regsUpTo x k hk), hpc, hframe⟩

/-- A register after LD Vx, [I]: one of `V0..Vx` is its byte of the block, one above `x` is as before. -/
theorem reg_effect_loadRegs (s : State) (x q : Reg) :
    (effect s (.loadRegs x)).reg q = if q.val ≤ x.val then s.byteAt (s.i.toNat + q.val) else s.reg q := by
  have hread := getElem_fillRegs (s.bytesAt s.i.toNat (x.val + 1)) s.v 0 q
  simp only [State.length_bytesAt, Nat.zero_le, true_and, Nat.zero_add, Nat.sub_zero, Nat.lt_add_one_iff] at hread
  refine hread.trans (ite_congr rfl (fun hq => ?_) fun _ => rfl)
  exact s.getD_bytesAt s.i.toNat (x.val + 1) q.val (Nat.lt_add_one_of_le hq)

/-- LD Vx, [I] changes `pc` and the registers `V0..Vx`. -/
theorem onlyChanges_effect_loadRegs (s : State) (x : Reg) :
    OnlyChanges s (effect s (.loadRegs x)) (fun p => p = .pc ∨ ∃ k : Reg, k.val ≤ x.val ∧ p = .reg k) := by
  intro p hp
  cases p
  case pc => exact absurd (.inl rfl) hp
  case reg q => exact (reg_effect_loadRegs s x q).trans (if_neg fun hq => hp (.inr ⟨q, hq, rfl⟩))
  all_goals rfl

/-- Settles O37: the block of `x + 1` bytes is checked before any register is written. -/
theorem blockLoadReadsRegisters : Obligations.BlockLoadReadsRegisters := by
  refine fun x s => ⟨hasWord_encodeXKk 0xF#4 x 0x65#8 _ fun _ _ _ _ => rfl, fun hfit => ?_,
    fun hout => exec_of_fault (.loadRegs x) s .accessOutOfRange (if_pos (by omega))⟩
  have hnofault : faultOf s (.loadRegs x) = none := if_neg (by omega)
  exact ⟨_, exec_of_no_fault (.loadRegs x) s hnofault, fun k hk => (reg_effect_loadRegs s x k).trans (if_pos hk), rfl,
    onlyChanges_effect_loadRegs s x⟩

end Sys2Proof.Machine
end

section
/-! Faults and ticks (spec 60_exceptions.md): the condition of R170 for each way a step can halt, read off the fetch and
off the one check of an instruction; the return stack over nested CALLs and RETs (R173); the ticks (R187 to R189). -/

namespace Sys2Proof.Machine

/-! ### A word that is no instruction (R174) -/

/-- On legal parameters a word the decoder rejects stands in no row of R66. -/
theorem unmatched_of_decodeWord_error {c : Config} {w : Word} {e : DecodeError} (hc : c.wf = true)
    (h : decodeWord c w = .error e) : ∀ row ∈ opcodeRows c, w &&& row.mask ≠ row.pattern := by
  intro row hrow hmatch
  obtain ⟨i, hi, _⟩ := (decodeFollowsOpcodeRows c hc).2 w row hrow hmatch
  cases h.symm.trans hi

/-- Whatever the parameters, a word in no row of R66 is none the decoder accepts. -/
theorem fetchInstr_unmatched {s : State} {w : Word} (hw : fetchWord s = .ok w)
    (hrows : ∀ row ∈ opcodeRows s.cfg, w &&& row.mask ≠ row.pattern) : fetchInstr s = .error .invalidInstruction := by
  cases hd : decodeWord s.cfg w with
  | error e => simp [fetchInstr, hw, hd]
  | ok i =>
    obtain ⟨row, hrow, _, hmatch⟩ := matchesRow_of_decodeWord hd
    exact absurd hmatch (hrows row hrow)

/-- Settles O7: the word is none the decoder accepts, so the step takes the fault of the decode phase. -/
theorem unmatchedWordHalts : Obligations.UnmatchedWordHalts := fun s _ hr hw hrows =>
  ⟨_, step_fault s .invalidInstruction hr (fetchInstr_unmatched hw hrows), rfl,
    onlyChanges_closeLoad_halt s .invalidInstruction⟩

/-! ### The table of faults (R170) -/

/-- The two faults raised before an instruction is known, each with its condition. -/
theorem fetchInstr_eq_error_iff (s : State) (f : Fault) (hc : s.cfg.wf = true) :
    fetchInstr s = .error f ↔ (f = .fetchOutOfRange ∧ 0xFFF < s.pc.toNat + 1) ∨
      (f = .invalidInstruction ∧
        ∃ w, fetchWord s = .ok w ∧ ∀ row ∈ opcodeRows s.cfg, w &&& row.mask ≠ row.pattern) := by
  constructor
  · intro h
    obtain ⟨hpc, e⟩ | ⟨hpc, ⟨_, hd⟩, e⟩ | ⟨_, i, _, e⟩ := fetchInstr_cases s <;> cases h.symm.trans e
    · exact .inl ⟨rfl, hpc⟩
    · exact .inr ⟨rfl, _, fetchWord_ok s hpc, unmatched_of_decodeWord_error hc hd⟩
  · rintro (⟨rfl, hpc⟩ | ⟨rfl, w, hw, hrows⟩)
    · exact fetchInstr_out_of_range s hpc
    · exact fetchInstr_unmatched hw hrows

/-- An instruction halts a running engine with the fault its check finds, and with no other. -/
theorem exec_halts_iff (i : Instr) (s : State) (f : Fault) (hr : s.status = .running) :
    (∃ t, exec i s = .next t ∧ t.status = .halted f) ↔ faultOf s i = some f := by
  constructor
  · rintro ⟨t, ht, hstatus⟩
    obtain ⟨g, hg, rfl⟩ | ⟨_, rfl⟩ := exec_cases i s t ht
    · cases hstatus
      exact hg
    · rw [effect_status, hr] at hstatus
      cases hstatus
  · exact fun hf => ⟨_, exec_of_fault i s f hf, rfl⟩

/-- A step halts a running engine with the fault of its fetch and decoding, or with the one its instruction's check
finds. -/
theorem step_halts_iff (s : State) (f : Fault) (hr : s.status = .running) :
    (∃ t, step s = .next t ∧ t.status = .halted f) ↔
      fetchInstr s = .error f ∨ ∃ i, fetchInstr s = .ok i ∧ faultOf s i = some f := by
  cases hfetch : fetchInstr s with
  | error g => simp [step_fault s g hr hfetch]
  | ok i => simp [step_exec s i hr hfetch, exec_halts_iff i s.closeLoad f hr]

/-- No event but `step` stops a running engine (R170). -/
theorem handle_keeps_running (e : Event) (s t : State) (he : e ≠ .step) (hr : s.status = .running)
    (hs : handle e s = .next t) : t.status = .running := by
  have hevent (u v : State) (hu : u.status = .running) (hv : v.status = .running) :
      (u.whenRunning v).status = .running := whenRunning_induction (fun w => w.status = .running) u v hu hv
  have hdelay : (tickDelay s).status = .running := hevent s _ hr hr
  cases e with
  | step => exact absurd rfl he
  | loadProgram bytes =>
    obtain ⟨_, e⟩ | ⟨_, _, e⟩ | ⟨_, _, e⟩ := loadProgram_cases bytes s <;> cases hs.symm.trans e
    exact hr
  | reset => cases hs; rfl
  | tickDelay => cases hs; exact hdelay
  | tickSound => cases hs; exact hevent s _ hr hr
  | tickTimers => cases hs; exact hevent (tickDelay s) _ hdelay hdelay
  | setKey k b => cases hs; exact hevent s _ hr hr
  | ackRedraw => cases hs; exact hevent s _ hr hr

/-- Settles O10: the conditions of the fetch, of the decoding and of the instruction's check are the three parts of the
statement's condition. -/
theorem stepHaltsExactlyOnListedConditions : Obligations.StepHaltsExactlyOnListedConditions := by
  refine fun s f hc hr => ⟨?_, fun e t hs hhalted => ?_⟩
  · simp only [step_halts_iff s f hr, fetchInstr_eq_error_iff s f hc, faultOf_iff s _ f hc, StepFaultCondition,
      or_assoc]
  · by_contra he
    cases hhalted.symm.trans (handle_keeps_running e s t he hr hs)

/-! ### Nested CALLs and RETs (R173) -/

theorem execAll_cons {i : Instr} {s t : State} (l : List Instr) (h : exec i s = .next t) :
    execAll (i :: l) s = execAll l t := by
  rw [execAll, h]

/-- CALLs that the stack has room for: each pushes above the slots in use, so the slot `SP` numbered at first holds the
return address of the outermost. -/
theorem execAll_calls (targets : List Addr) (s : State) (hroom : s.sp.val + targets.length ≤ 16) :
    ∃ t, execAll (targets.map .call) s = .next t ∧ t.sp.val = s.sp.val + targets.length ∧ t.status = s.status ∧
      (∀ k : Fin 16, k.val < s.sp.val → t.stack[k] = s.stack[k]) ∧
      (0 < targets.length → ∀ k : Fin 16, s.sp.val = k.val → t.stack[k] = s.pc + 2#16) := by
  induction targets generalizing s with
  | nil => exact ⟨s, rfl, rfl, rfl, fun _ _ => rfl, fun h => absurd h (Nat.lt_irrefl 0)⟩
  | cons nnn rest ih =>
    rw [List.length_cons] at hroom
    obtain ⟨top, htop⟩ : ∃ k : Fin 16, s.sp.val = k.val := ⟨⟨s.sp.val, by omega⟩, rfl⟩
    obtain ⟨_, hcall, _⟩ := callPushesNextAddressOrOverflows nnn
    obtain ⟨u, hu, hpushed, hcount, _, hframe⟩ := hcall s top htop
    obtain ⟨t, ht, hsp, hstatus, hkept, _⟩ := ih u (by omega)
    refine ⟨t, (execAll_cons _ hu).trans ht, by rw [hsp, hcount, List.length_cons]; omega,
      hstatus.trans (hframe .status (by simp)), fun k hk => ?_, fun _ k hk => ?_⟩
    · have hne : k ≠ top := Fin.ne_of_val_ne (by omega)
      exact (hkept k (by omega)).trans (hframe (.slot k) (by simp [hne]))
    · obtain rfl : top = k := Fin.ext (htop.symm.trans hk)
      exact (hkept top (by omega)).trans hpushed

/-- As many RETs as there are return addresses: the last one pops slot 0, and no RET writes a slot (R14). -/
theorem execAll_rets (n : Nat) (s : State) (hsp : s.sp.val = n + 1) :
    ∃ u, execAll (List.replicate (n + 1) .ret) s = .next u ∧ u.sp.val = 0 ∧ u.pc = s.stack[(0 : Fin 16)] ∧
      u.status = s.status := by
  obtain ⟨_, hret, _⟩ := retPopsIntoPcOrUnderflows
  induction n generalizing s with
  | zero =>
    obtain ⟨t, ht, hpc, hcount, hframe⟩ := hret s 0 hsp
    exact ⟨t, execAll_cons [] ht, hcount, hpc, hframe .status (by simp)⟩
  | succ n ih =>
    obtain ⟨t, ht, _, hcount, hframe⟩ := hret s ⟨n + 1, by omega⟩ hsp
    obtain ⟨u, hu, hzero, hpc, hstatus⟩ := ih t hcount
    exact ⟨u, (execAll_cons _ ht).trans hu, hzero, hpc.trans (hframe (.slot 0) (by simp)),
      hstatus.trans (hframe .status (by simp))⟩

/-- Settles O16: the CALLs leave the outermost return address in slot 0, which the last RET pops; the further CALL and
the further RET find the stack full and empty. -/
theorem nestedCallsReturnToOutermostCaller : Obligations.NestedCallsReturnToOutermostCaller := by
  intro s targets hempty hlen
  obtain ⟨t, ht, hsp, hstatus, _, houtermost⟩ := execAll_calls targets s (by omega)
  rw [hempty, Nat.zero_add] at hsp
  refine ⟨⟨t, ht, hsp, hstatus, fun hfull nnn => ?_⟩, fun hpos => ?_⟩
  · exact exec_of_fault (.call nnn) t .stackOverflow (if_pos (hsp.trans hfull))
  · obtain ⟨n, hn⟩ := Nat.exists_eq_add_one.2 hpos
    obtain ⟨u, hu, hzero, hpc, hstatus'⟩ := execAll_rets n t (hsp.trans hn)
    rw [← hn] at hu
    exact ⟨u, (execAll_append _ _ s t ht).trans hu, hzero, hpc.trans (houtermost hpos 0 hempty),
      hstatus'.trans hstatus, exec_of_fault .ret u .stackUnderflow (if_pos hzero)⟩

/-! ### The ticks (R187 to R189) -/

/-- Setting the timers changes a timer only where it gets another value. -/
theorem onlyChanges_timers {s : State} {dt st : Byte} {P : Part → Prop} (hdelay : dt = s.dt ∨ P .delay)
    (hsound : st = s.st ∨ P .sound) : OnlyChanges s { s with dt := dt, st := st } P := by
  intro p hp
  cases p
  case delay => exact hdelay.resolve_right hp
  case sound => exact hsound.resolve_right hp
  all_goals rfl

theorem tickDelay_running {s : State} (h : s.status = .running) : tickDelay s = { s with dt := countDown s.dt } :=
  whenRunning_running s _ h

theorem tickSound_running {s : State} (h : s.status = .running) : tickSound s = { s with st := countDown s.st } :=
  whenRunning_running s _ h

theorem tickTimers_running {s : State} (h : s.status = .running) :
    tickTimers s = { s with dt := countDown s.dt, st := countDown s.st } :=
  (tickTimers_eq s).trans (whenRunning_running s _ h)

theorem ticks_halted {s : State} {f : Fault} (h : s.status = .halted f) :
    tickDelay s = s ∧ tickSound s = s ∧ tickTimers s = s :=
  ⟨whenRunning_halted s _ f h, whenRunning_halted s _ f h, (tickTimers_eq s).trans (whenRunning_halted s _ f h)⟩

/-- The two ticks write different timers, so their order does not matter (R189). -/
theorem tickTimers_eq_tickDelay_tickSound (s : State) : tickTimers s = tickDelay (tickSound s) := by
  cases h : s.status with
  | halted f =>
    obtain ⟨hdelay, hsound, htimers⟩ := ticks_halted h
    rw [htimers, hsound, hdelay]
  | running =>
    rw [tickTimers_running h, tickSound_running h]
    exact (tickDelay_running (s := { s with st := countDown s.st }) h).symm

/-- After a tick the tone is on iff the sound timer had more than that one tick left (R188, R192). -/
theorem tone_countDown_iff (s : State) :
    State.tone { s with st := countDown s.st } = true ↔ 1 < s.st.toNat := by
  rw [State.tone, decide_eq_true_iff, toNat_countDown]
  omega

/-- Settles O51: on a running engine each tick is the count of its timers, on a halted one it is nothing. -/
theorem ticksCountDownToZero : Obligations.TicksCountDownToZero := by
  refine fun s => ⟨fun hr => ⟨?delay, ?sound, ?timers⟩, fun f hf => ?halted, rfl,
    congrArg Host.Outcome.next (tickTimers_eq_tickDelay_tickSound s)⟩
  case delay =>
    exact ⟨_, congrArg Host.Outcome.next (tickDelay_running hr), toNat_countDown s.dt,
      onlyChanges_timers (.inr rfl) (.inl rfl)⟩
  case sound =>
    exact ⟨_, congrArg Host.Outcome.next (tickSound_running hr), toNat_countDown s.st, tone_countDown_iff s,
      onlyChanges_timers (.inl rfl) (.inr rfl)⟩
  case timers =>
    exact ⟨_, congrArg Host.Outcome.next (tickTimers_running hr), toNat_countDown s.dt, toNat_countDown s.st,
      onlyChanges_timers (.inr (.inl rfl)) (.inr (.inr rfl))⟩
  case halted =>
    obtain ⟨hdelay, hsound, htimers⟩ := ticks_halted hf
    exact ⟨congrArg Host.Outcome.next hdelay, congrArg Host.Outcome.next hsound, congrArg Host.Outcome.next htimers⟩

end Sys2Proof.Machine
end

section
/-! The encoder against the decoder (spec 30_encoding.md R61, R66): one direction from the round trip of each
instruction, the other from the fields each arm of the decoder tests, since a word is assembled from its own fields. -/

namespace Sys2Proof

/-- Settles O1: the round trip of each of the 35 instructions. -/
theorem decodeUndoesEncode : Obligations.DecodeUndoesEncode := by
  intro c i
  cases i with
  | cls => exact Laws.RoundTrip.cls c
  | ret => exact Laws.RoundTrip.ret c
  | jp nnn => exact Laws.RoundTrip.jp nnn c
  | call nnn => exact Laws.RoundTrip.call nnn c
  | seImm x kk => exact Laws.RoundTrip.seImm x kk c
  | sneImm x kk => exact Laws.RoundTrip.sneImm x kk c
  | seReg x y => exact Laws.RoundTrip.seReg x y c
  | ldImm x kk => exact Laws.RoundTrip.ldImm x kk c
  | addImm x kk => exact Laws.RoundTrip.addImm x kk c
  | ldReg x y => exact Laws.RoundTrip.ldReg x y c
  | orReg x y => exact Laws.RoundTrip.orReg x y c
  | andReg x y => exact Laws.RoundTrip.andReg x y c
  | xorReg x y => exact Laws.RoundTrip.xorReg x y c
  | addReg x y => exact Laws.RoundTrip.addReg x y c
  | sub x y => exact Laws.RoundTrip.sub x y c
  | shr x y => exact Laws.RoundTrip.shr x y c
  | subn x y => exact Laws.RoundTrip.subn x y c
  | shl x y => exact Laws.RoundTrip.shl x y c
  | sneReg x y => exact Laws.RoundTrip.sneReg x y c
  | ldI nnn => exact Laws.RoundTrip.ldI nnn c
  | jpV0 nnn => exact Laws.RoundTrip.jpV0 nnn c
  | rnd x kk => exact Laws.RoundTrip.rnd x kk c
  | drw x y n => exact Laws.RoundTrip.drw x y n c
  | skp x => exact Laws.RoundTrip.skp x c
  | sknp x => exact Laws.RoundTrip.sknp x c
  | ldVxDt x => exact Laws.RoundTrip.ldVxDt x c
  | ldVxK x => exact Laws.RoundTrip.ldVxK x c
  | ldDtVx x => exact Laws.RoundTrip.ldDtVx x c
  | ldStVx x => exact Laws.RoundTrip.ldStVx x c
  | addI x => exact Laws.RoundTrip.addI x c
  | ldF x => exact Laws.RoundTrip.ldF x c
  | ldB x => exact Laws.RoundTrip.ldB x c
  | storeRegs x => exact Laws.RoundTrip.storeRegs x c
  | loadRegs x => exact Laws.RoundTrip.loadRegs x c
  | ldVxSt x => exact Laws.RoundTrip.ldVxSt x c

/-! ### A word from the fields its instruction is decoded from -/

theorem encodeNnn_eq_of_fields {w : Word} {op : BitVec 4} {nnn : Addr} (hop : fieldOp w = op)
    (hnnn : fieldNnn w = nnn) : encodeNnn op nnn = w := by
  rw [← hop, ← hnnn, encodeNnn_fields]

theorem encodeXKk_eq_of_fields {w : Word} {op : BitVec 4} {kk : Byte} (hop : fieldOp w = op) (hkk : fieldKk w = kk) :
    encodeXKk op (fieldX w) kk = w := by
  rw [← hop, ← hkk, encodeXKk_fields]

theorem encodeXYN_eq_of_fields {w : Word} {op n : BitVec 4} (hop : fieldOp w = op) (hn : fieldN w = n) :
    encodeXYN op (fieldX w) (fieldY w) n = w := by
  rw [← hop, ← hn, encodeXYN_fields]

/-! ### The word of what an arm of the decoder answers -/

theorem encodeWord_of_decodeGroup0 {c : Config} {w : Word} {i : Instr} (hop : fieldOp w = 0x0#4)
    (h : decodeGroup0 (fieldNnn w) = .ok i) : encodeWord c i = some w := by
  unfold decodeGroup0 at h
  split_ifs at h with hcls hret <;> cases h
  · exact congrArg some (encodeNnn_eq_of_fields hop hcls)
  · exact congrArg some (encodeNnn_eq_of_fields hop hret)

theorem encodeWord_of_decodeGroup8 {c : Config} {w : Word} {i : Instr} (hop : fieldOp w = 0x8#4)
    (h : decodeGroup8 (fieldX w) (fieldY w) (fieldN w) = .ok i) : encodeWord c i = some w := by
  unfold decodeGroup8 at h
  split_ifs at h <;> cases h
  all_goals
    rename_i hn
    exact congrArg some (encodeXYN_eq_of_fields hop hn)

theorem encodeWord_of_decodeGroupE {c : Config} {w : Word} {i : Instr} (hop : fieldOp w = 0xE#4)
    (h : decodeGroupE (fieldX w) (fieldKk w) = .ok i) : encodeWord c i = some w := by
  unfold decodeGroupE at h
  split_ifs at h with hskp hsknp <;> cases h
  · exact congrArg some (encodeXKk_eq_of_fields hop hskp)
  · exact congrArg some (encodeXKk_eq_of_fields hop hsknp)

theorem encodeWord_of_decodeGroupF {c : Config} {w : Word} {i : Instr} (hop : fieldOp w = 0xF#4)
    (h : decodeGroupF c (fieldX w) (fieldKk w) = .ok i) : encodeWord c i = some w := by
  unfold decodeGroupF at h
  split_ifs at h <;> cases h
  all_goals rename_i hkk
  on_goal 10 => rw [encodeWord, hkk, Option.map_some, encodeXKk_eq_of_fields hop rfl]
  all_goals exact congrArg some (encodeXKk_eq_of_fields hop hkk)

/-- Settles O2: each arm of the decoder tests the fields that its instruction's word is assembled from. -/
theorem encodeUndoesDecode : Obligations.EncodeUndoesDecode := by
  intro c w i h
  unfold decodeWord decodeFields at h
  split at h
  case h_1 hop => exact encodeWord_of_decodeGroup0 hop h
  case h_9 hop => exact encodeWord_of_decodeGroup8 hop h
  case h_15 hop => exact encodeWord_of_decodeGroupE hop h
  case h_16 =>
    have hop : fieldOp w = 0xF#4 := by
      simp only [imp_false] at *
      bv_omega
    exact encodeWord_of_decodeGroupF hop h
  case h_6 hop | h_10 hop =>
    split_ifs at h with hn
    cases h
    exact congrArg some (encodeXYN_eq_of_fields hop hn)
  case h_14 hop =>
    cases h
    exact congrArg some (encodeXYN_eq_of_fields hop rfl)
  case h_2 hop | h_3 hop | h_11 hop | h_12 hop =>
    cases h
    exact congrArg some (encodeNnn_eq_of_fields hop rfl)
  all_goals
    rename_i hop
    cases h
    exact congrArg some (encodeXKk_eq_of_fields hop rfl)

/-- Settles O4: ten closed words, each computed. -/
theorem sampleWordsDecode : Obligations.SampleWordsDecode :=
  ⟨rfl, rfl, rfl, rfl, rfl, rfl, rfl, rfl, rfl, rfl⟩

end Sys2Proof
end

section
/-! One step (spec 30_encoding.md R69, 60_exceptions.md R171, R196): what it runs and what it answers; and what a step
does not read, `REDRAW` and the stack slots at or above `SP`. -/

namespace Sys2Proof.Machine

/-! ### What a step runs and answers (R69, R171, R172) -/

/-- Settles O55: the invariant goes through the three things a step can be. -/
theorem stepKeepsInv : Obligations.StepKeepsInv := step_keeps_inv

theorem step_answers (s : State) : ∃ t, step s = .next t := by
  obtain ⟨_, e⟩ | ⟨_, f, _, e⟩ | ⟨_, i, _, e⟩ := step_cases s
  · exact ⟨_, e⟩
  · exact ⟨_, e⟩
  · exact ⟨_, e.trans (exec_eq i s.closeLoad)⟩

/-- Settles O8: an instruction has its effect or takes its fault, and either is a next state. -/
theorem everyStepAnswersAState : Obligations.EveryStepAnswersAState :=
  ⟨fun i s => ⟨_, exec_eq i s⟩, step_answers⟩

theorem faultCode_of_halted {s : State} {f : Fault} (h : s.status = .halted f) : s.faultCode = some f := by
  rw [State.faultCode, h]

/-- Settles O9: a step that halts took a fault, of the fetch or of the instruction's check; an effect would have left
the engine running. -/
theorem faultChangesOnlyStatus : Obligations.FaultChangesOnlyStatus := by
  intro s t f hr hs hhalted
  refine ⟨?_, faultCode_of_halted hhalted⟩
  obtain ⟨⟨g, hg⟩, _⟩ | ⟨_, g, _, e⟩ | ⟨_, i, _, e⟩ := step_cases s
  · cases hr.symm.trans hg
  · cases hs.symm.trans e
    cases hhalted
    rfl
  · obtain ⟨g, _, rfl⟩ | ⟨_, rfl⟩ := exec_cases i s.closeLoad t (e.symm.trans hs)
    · cases hhalted
      rfl
    · cases hr.symm.trans ((effect_status s.closeLoad i).symm.trans hhalted)

theorem fetchInstr_ok {s : State} {i : Instr} (hpc : s.pc.toNat + 1 ≤ 0xFFF)
    (hd : decodeWord s.cfg (wordOfBytes (s.byteAt s.pc.toNat) (s.byteAt (s.pc.toNat + 1))) = .ok i) :
    fetchInstr s = .ok i := by
  simp only [fetchInstr, fetchWord_ok s hpc, hd]

/-- Settles O5: the fetch reads the two bytes and decodes them to the instruction the step runs. -/
theorem stepRunsDecodedInstruction : Obligations.StepRunsDecodedInstruction := fun s i hr hpc hd =>
  step_exec s i hr (fetchInstr_ok hpc hd)

/-- The two bytes at `pc` after the host placed a word there are those of the word (log entry 10). -/
theorem wordOfBytes_withFetchWord (s : State) {w : Nat} (hw : w < 65536) :
    wordOfBytes ((s.withFetchWord 16 w).byteAt s.pc.toNat) ((s.withFetchWord 16 w).byteAt (s.pc.toNat + 1))
      = BitVec.ofNat 16 w := by
  have hread (k : Nat) (hk : k < 2) :
      (s.withFetchWord 16 w).byteAt (s.pc.toNat + k) = (bytesOfWord (BitVec.ofNat 16 w)).getD k 0#8 := by
    have hbytes : tableBytes 16 w = bytesOfWord (BitVec.ofNat 16 w) :=
      congrArg (fun n => bytesOfWord (BitVec.ofNat 16 n)) (Nat.mod_eq_of_lt hw)
    rw [← hbytes]
    exact byteAt_writeBytes_advance s s.pc.toNat (tableBytes 16 w) k hk
  rw [hread 1 (by decide), ← Nat.add_zero s.pc.toNat, hread 0 (by decide)]
  exact wordOfBytes_bytesOfWord _

/-- Settles O12: the placed bytes are the word at `pc` of a running engine, and placing them leaves `pc` and the
parameters. -/
theorem placedWordRunsNext : Obligations.PlacedWordRunsNext := by
  intro s w i hpc hw hd
  refine stepRunsDecodedInstruction (s.withFetchWord 16 w) i rfl hpc ?_
  exact (congrArg (decodeWord s.cfg) (wordOfBytes_withFetchWord s hw)).trans hd

/-- Settles O53: the jump goes to where `pc` is, so the effect is no change. -/
theorem selfJumpStandsStill : Obligations.SelfJumpStandsStill := by
  rintro s ⟨hr, nnn, hfetch, hpc⟩
  have hstill : effect s.closeLoad (.jp nnn) = s.closeLoad :=
    congrArg (fun w => { s.closeLoad with pc := w }) hpc.symm
  have hstep : step s = .next s.closeLoad := by
    rw [step_exec s _ hr hfetch, exec_of_no_fault (.jp nnn) s.closeLoad rfl, hstill]
  refine ⟨hstep, fun hclosed => hstep.trans (congrArg Host.Outcome.next ?_)⟩
  rw [State.closeLoad, ← hclosed]

/-! ### Steps of two states that agree in what is read -/

/-- Two states whose steps fetch the same instruction and find the same fault: a relation that holds of the states, of
the states halted and of the effects holds of the states after the step. -/
theorem steps_related {R : State → State → Prop} {s s' : State} (hstatus : s'.status = s.status)
    (hfetch : fetchInstr s' = fetchInstr s) (hfault : ∀ i, faultOf s' i = faultOf s i) (hstill : R s s')
    (hhalt : ∀ f, R { s.closeLoad with status := .halted f } { s'.closeLoad with status := .halted f })
    (heffect : ∀ i, faultOf s i = none → R (effect s.closeLoad i) (effect s'.closeLoad i)) :
    ∃ t t', step s = .next t ∧ step s' = .next t' ∧ R t t' := by
  obtain ⟨⟨f, hf⟩, e⟩ | ⟨hr, f, hf, e⟩ | ⟨hr, i, hi, e⟩ := step_cases s
  · exact ⟨s, s', e, step_halted s' f (hstatus.trans hf), hstill⟩
  · exact ⟨_, _, e, step_fault s' f (hstatus.trans hr) (hfetch.trans hf), hhalt f⟩
  · have e' := step_exec s' i (hstatus.trans hr) (hfetch.trans hi)
    have hcheck : faultOf s'.closeLoad i = faultOf s i := (faultOf_closeLoad s' i).trans (hfault i)
    cases hf : faultOf s i with
    | some f =>
      exact ⟨_, _, e.trans (exec_of_fault i _ f ((faultOf_closeLoad s i).trans hf)),
        e'.trans (exec_of_fault i _ f (hcheck.trans hf)), hhalt f⟩
    | none =>
      exact ⟨_, _, e.trans (exec_of_no_fault i _ ((faultOf_closeLoad s i).trans hf)),
        e'.trans (exec_of_no_fault i _ (hcheck.trans hf)), heffect i hf⟩

/-! ### REDRAW (R18) -/

/-- The second state differs from the first at most in `REDRAW`. -/
def SameButRedraw (s s' : State) : Prop := { s with redraw := false } = { s' with redraw := false }

theorem effect_sameButRedraw (s : State) (b : Bool) (i : Instr) :
    SameButRedraw (effect s i) (effect { s with redraw := b } i) := by
  cases i
  case ldVxK x =>
    have hsame : State.firstKey { s with redraw := b } = s.firstKey := rfl
    cases hk : s.firstKey with
    | none => rw [effect_ldVxK_none hk, effect_ldVxK_none (hsame.trans hk)]; rfl
    | some k => rw [effect_ldVxK_some hk, effect_ldVxK_some (hsame.trans hk)]; rfl
  all_goals rfl

theorem faultOf_withRedraw (s : State) (b : Bool) (i : Instr) : faultOf { s with redraw := b } i = faultOf s i := by
  cases i <;> rfl

/-- Settles O45: neither the fetch nor a check nor an effect reads `REDRAW`. -/
theorem redrawIsNeverRead : Obligations.RedrawIsNeverRead := fun s b =>
  steps_related (R := SameButRedraw) (s' := { s with redraw := b }) rfl rfl (faultOf_withRedraw s b) rfl
    (fun _ => rfl) (fun i _ => effect_sameButRedraw s.closeLoad b i)

/-! ### Stale stack slots (R14) -/

/-- The second state differs from the first at most in stack slots at or above `SP`. -/
def SameBelowSP (s s' : State) : Prop :=
  (∀ k : Fin 16, k.val < s.sp.val → s'.stack[k] = s.stack[k]) ∧ { s' with stack := s.stack } = s

/-- RET pops a slot below `SP`, CALL pushes the same address into the slot at `SP`, and no other effect reaches the
stack. -/
theorem effect_sameBelowSP (s : State) (other : Vector Word 16) (i : Instr) (hf : faultOf s i = none)
    (h : ∀ k : Fin 16, k.val < s.sp.val → other[k] = s.stack[k]) :
    SameBelowSP (effect s i) (effect { s with stack := other } i) := by
  cases i
  case ret =>
    have hpos : s.sp.val ≠ 0 := by simpa [faultOf] using hf
    have hpop : other[s.sp.val - 1] = s.stack[s.sp.val - 1] := h ⟨s.sp.val - 1, by omega⟩ (by dsimp only; omega)
    refine ⟨fun k hk => h k ?_, ?_⟩
    · simp only [effect] at hk
      omega
    · simp only [effect, hpop]
  case call nnn =>
    refine ⟨fun k hk => ?_, rfl⟩
    have hroom : s.sp.val ≠ 16 := by simpa [faultOf] using hf
    simp only [effect, Fin.val_ofNat] at hk
    simp only [effect, Fin.getElem_fin, Vector.getElem_setIfInBounds]
    split
    · rfl
    · exact h k (by omega)
  case ldVxK x =>
    have hsame : State.firstKey { s with stack := other } = s.firstKey := rfl
    cases hk : s.firstKey with
    | none => rw [effect_ldVxK_none hk, effect_ldVxK_none (hsame.trans hk)]; exact ⟨h, rfl⟩
    | some k => rw [effect_ldVxK_some hk, effect_ldVxK_some (hsame.trans hk)]; exact ⟨h, rfl⟩
  all_goals exact ⟨h, rfl⟩

/-- A check of the stack compares `SP` alone. -/
theorem faultOf_withStack (s : State) (other : Vector Word 16) (i : Instr) :
    faultOf { s with stack := other } i = faultOf s i := by
  cases i <;> rfl

/-- Settles O46: neither the fetch nor a check reads a slot, and the effects agree below `SP`. -/
theorem staleStackSlotsAreNeverRead : Obligations.StaleStackSlotsAreNeverRead := fun s other h =>
  steps_related (R := SameBelowSP) rfl rfl (faultOf_withStack s other) ⟨h, rfl⟩ (fun _ => ⟨h, rfl⟩)
    (fun i hf => effect_sameBelowSP s.closeLoad other i ((faultOf_closeLoad s i).trans hf) h)

end Sys2Proof.Machine
end

section
/-! What every instruction leaves unchanged (spec 10_state.md R11, R14 to R18), one frame for each part of the state;
then statements about single instructions and pairs of them, from what is settled of each. -/

namespace Sys2Proof.Machine

/-! ### What an effect leaves unchanged -/

/-- What holds of a state and of what LD Vx, K makes of it with a key latched holds of the effect of LD Vx, K. -/
theorem effect_ldVxK_induction (P : State → Prop) (s : State) (x : Reg) (hwait : P s)
    (hkey : ∀ k, P (s.clearKeys.setReg x k).advance) : P (effect s (.ldVxK x)) := by
  cases hk : s.firstKey with
  | none => rwa [effect_ldVxK_none hk]
  | some k => rw [effect_ldVxK_some hk]; exact hkey _

theorem effect_reg_of_not_named (s : State) (i : Instr) (r : Reg) (hdest : ¬ NamesDest r i)
    (hflag : ¬ (WritesFlag i ∧ r = 15)) : (effect s i).reg r = s.reg r := by
  have hresult (t : State) (x : Reg) (b : Byte) (hx : ¬ r = x) : (t.setReg x b).advance.reg r = t.reg r :=
    (State.reg_setReg t x r b).trans (if_neg hx)
  have hboth (x : Reg) (b f : Byte) (hx : ¬ r = x) (hvf : ¬ r = 15) :
      (s.setRegThenFlag x b f).advance.reg r = s.reg r :=
    (State.reg_setRegThenFlag s x r b f).trans ((if_neg hvf).trans (if_neg hx))
  cases i
  case ldImm | addImm | rnd | ldVxDt | ldVxSt | ldReg | orReg | andReg | xorReg => exact hresult _ _ _ hdest
  case addReg | sub | shr | subn | shl => exact hboth _ _ _ hdest fun hvf => hflag ⟨trivial, hvf⟩
  case drw => exact hresult _ _ _ fun hvf => hflag ⟨trivial, hvf⟩
  case loadRegs x => exact (reg_effect_loadRegs s x r).trans (if_neg hdest)
  case ldVxK x =>
    exact effect_ldVxK_induction (fun t => t.reg r = s.reg r) s x rfl fun k => hresult s.clearKeys x k hdest
  all_goals rfl

theorem effect_display_of_not_draws (s : State) (i : Instr) (hcls : i ≠ .cls) (hdrw : ∀ x y n, i ≠ .drw x y n) :
    (effect s i).pix = s.pix ∧ (effect s i).redraw = s.redraw := by
  cases i
  case cls => exact absurd rfl hcls
  case drw x y n => exact absurd rfl (hdrw x y n)
  case ldVxK x =>
    exact effect_ldVxK_induction (fun t => t.pix = s.pix ∧ t.redraw = s.redraw) s x ⟨rfl, rfl⟩ fun _ => ⟨rfl, rfl⟩
  all_goals exact ⟨rfl, rfl⟩

/-- CLS and DRW write `REDRAW`, and write 1 (R18). -/
theorem effect_redraw_of_set (s : State) (i : Instr) (h : s.redraw = true) : (effect s i).redraw = true := by
  by_cases hcls : i = .cls
  · rw [hcls]
    rfl
  by_cases hdrw : ∃ x y n, i = .drw x y n
  · obtain ⟨x, y, n, rfl⟩ := hdrw
    rfl
  obtain ⟨_, hredraw⟩ := effect_display_of_not_draws s i hcls fun x y n e => hdrw ⟨x, y, n, e⟩
  exact hredraw.trans h

theorem effect_stack_of_not_call (s : State) (i : Instr) (hret : i ≠ .ret) (hcall : ∀ nnn, i ≠ .call nnn) :
    (effect s i).sp = s.sp ∧ (effect s i).stack = s.stack := by
  cases i
  case ret => exact absurd rfl hret
  case call nnn => exact absurd rfl (hcall nnn)
  case ldVxK x =>
    exact effect_ldVxK_induction (fun t => t.sp = s.sp ∧ t.stack = s.stack) s x ⟨rfl, rfl⟩ fun _ => ⟨rfl, rfl⟩
  all_goals exact ⟨rfl, rfl⟩

theorem effect_dt (s : State) (i : Instr) (h : ∀ x, i ≠ .ldDtVx x) : (effect s i).dt = s.dt := by
  cases i
  case ldDtVx x => exact absurd rfl (h x)
  case ldVxK x => exact effect_ldVxK_induction (fun t => t.dt = s.dt) s x rfl fun _ => rfl
  all_goals rfl

theorem effect_st (s : State) (i : Instr) (h : ∀ x, i ≠ .ldStVx x) : (effect s i).st = s.st := by
  cases i
  case ldStVx x => exact absurd rfl (h x)
  case ldVxK x => exact effect_ldVxK_induction (fun t => t.st = s.st) s x rfl fun _ => rfl
  all_goals rfl

/-- An effect keeps the latches or clears all sixteen (R16). -/
theorem effect_key (s : State) (i : Instr) : (effect s i).key = s.key ∨ (effect s i).key = s.clearKeys.key := by
  cases i
  case skp | sknp => exact .inr rfl
  case ldVxK x =>
    exact effect_ldVxK_induction (fun t => t.key = s.key ∨ t.key = s.clearKeys.key) s x (.inl rfl) fun _ => .inr rfl
  all_goals exact .inl rfl

theorem key_set_of_effect (s : State) (i : Instr) (k : Fin 16) (h : (effect s i).key[k] = true) :
    s.key[k] = true := by
  obtain hkept | hcleared := effect_key s i
  · rwa [hkept] at h
  · rw [hcleared, State.clearKeys_key, Fin.getElem_fin, Vector.getElem_replicate] at h
    cases h

/-! ### Frames over all instructions -/

/-- Settles O25: a fault leaves the registers; an effect writes the register it names and, for the six operations of
R11's table, the flag, which is a truth value. -/
theorem registersChangeOnlyWhereNamed : Obligations.RegistersChangeOnlyWhereNamed := by
  intro i s t h
  obtain ⟨f, _, rfl⟩ | ⟨_, rfl⟩ := exec_cases i s t h
  · refine ⟨fun _ _ _ => rfl, fun _ hkept hr => ?_⟩
    cases hkept.trans hr
  · refine ⟨effect_reg_of_not_named s i, fun hw _ _ => ?_⟩
    obtain ⟨c, hc⟩ := effect_regVF_of_writesFlag s i hw
    exact hc ▸ b2n_eq_zero_or_one c

/-- Settles O43: a fault leaves the display; an effect other than that of CLS and DRW does too. -/
theorem onlyClsAndDrwTouchDisplay : Obligations.OnlyClsAndDrwTouchDisplay := by
  intro i s t h
  obtain ⟨f, _, rfl⟩ | ⟨_, rfl⟩ := exec_cases i s t h
  · exact ⟨fun _ _ => ⟨fun _ _ => rfl, rfl⟩, id⟩
  · refine ⟨fun hcls hdrw => ?_, effect_redraw_of_set s i⟩
    obtain ⟨hpix, hredraw⟩ := effect_display_of_not_draws s i hcls hdrw
    exact ⟨fun col row => congrArg (getPixel · col row) hpix, hredraw⟩

/-- Settles O44: a fault leaves stack, timers and latches; an effect leaves each unless it is that of its writer. -/
theorem stackTimersAndLatchesHaveFewWriters : Obligations.StackTimersAndLatchesHaveFewWriters := by
  intro i s t h
  obtain ⟨f, _, rfl⟩ | ⟨_, rfl⟩ := exec_cases i s t h
  · exact ⟨fun _ _ => ⟨rfl, rfl⟩, fun _ => rfl, fun _ => rfl, fun _ hk => hk⟩
  · exact ⟨effect_stack_of_not_call s i, effect_dt s i, effect_st s i, key_set_of_effect s i⟩

/-! ### RND (R132) -/

/-- A draw, a register result and the advance change `pc`, that register and the count of draws. -/
theorem onlyChanges_draws_setReg_advance (s : State) (n : Nat) (x : Reg) (b : Byte) :
    OnlyChanges s (State.setReg { s with draws := n } x b).advance (fun p => p = .pc ∨ p = .reg x ∨ p = .draws) := by
  intro p hp
  simp only [not_or] at hp
  obtain ⟨hpc, hreg, hdraws⟩ := hp
  cases p
  case draws => exact absurd rfl hdraws
  all_goals exact onlyChanges_setReg_advance { s with draws := n } x b _ (not_or.2 ⟨hpc, hreg⟩)

/-- Settles O26: the result is an AND with `kk`, so it has no bit that `kk` lacks. -/
theorem randomIsMaskedFreeByte : Obligations.RandomIsMaskedFreeByte := by
  refine fun x kk s => ⟨hasWord_encodeXKk 0xC#4 x kk _ fun _ _ _ _ => rfl, _, exec_of_no_fault (.rnd x kk) s rfl, ?_⟩
  have hx : (effect s (.rnd x kk)).reg x = Config.randomByte s.draws &&& kk := State.reg_setReg_same _ x _
  refine ⟨hx, fun j hj => ?_, rfl, rfl, onlyChanges_draws_setReg_advance s _ x _⟩
  rw [hx, BitVec.getLsbD_and, hj, Bool.and_false]

/-! ### LD F and the font (R22, R156) -/

/-- Settles O30: LD F changes no byte, so the five bytes at `I` are reset content, which is the font table there. -/
theorem glyphBytesLieWhereIndexPoints : Obligations.GlyphBytesLieWhereIndexPoints := by
  intro x s hlegal hfont
  obtain ⟨_, t, ht, hi, _, hframe⟩ := glyphAddressUsesLowNibble x s hlegal
  refine ⟨t, ht, fun j hj => ?_⟩
  have hglyph : 5 * ((s.reg x).toNat % 16) + j < 80 := by omega
  have hbyte : t.byteAt (t.i.toNat + j) = s.byteAt (t.i.toNat + j) := hframe (.byte _) (by simp)
  rw [hbyte, hi, Nat.add_assoc, hfont _ (by omega) (by omega)]
  exact resetByte_font s.cfg hlegal _ hglyph

/-! ### A key skip before a wait for a key (R217) -/

/-- Settles O34: the skip clears all sixteen latches, and with none latched LD Vx, K changes nothing. -/
theorem keyPressIsConsumedByFirstLook : Obligations.KeyPressIsConsumedByFirstLook := by
  intro x y s hx i hi
  obtain ⟨_, _, hskips, _⟩ := keySkipsConsumeAllLatches x s
  obtain ⟨⟨t, ht, hclear, _⟩, ⟨u, hu, hclear', _⟩⟩ := hskips ⟨(s.reg x).toNat, Nat.lt_succ_of_le hx⟩ rfl
  have hwaits (t : State) : (∀ k : Fin 16, t.key[k] = false) → exec (.ldVxK y) t = .next t :=
    have ⟨_, _, hnone⟩ := keyWaitTakesLeastKeyOrWaits y t
    hnone
  obtain rfl | rfl := hi
  · exact ⟨t, ht, hwaits t hclear⟩
  · exact ⟨u, hu, hwaits u hclear'⟩

/-! ### A store ahead of pc (R52) -/

/-- The word fetched next is that of the two bytes where `pc` points. -/
theorem fetchWord_of_bytes {t : State} {a : Word} {hi lo : Byte} (hpc : t.pc = a) (ha : a.toNat + 1 ≤ 0xFFF)
    (hhi : t.byteAt a.toNat = hi) (hlo : t.byteAt (a.toNat + 1) = lo) : fetchWord t = .ok (wordOfBytes hi lo) := by
  subst hpc hhi hlo
  exact fetchWord_ok t ha

/-- Settles O39: either store leaves `pc` at the address it stored to. -/
theorem storeIsSeenByNextFetch : Obligations.StoreIsSeenByNextFetch := by
  refine fun x s hi => ⟨fun hx hfit => ?_, fun hfit => ?_⟩
  · obtain ⟨_, hstore, _⟩ := blockStoreWritesRegisters x s
    obtain ⟨t, ht, hbytes, hpc, _⟩ := hstore hfit
    exact ⟨t, ht, fetchWord_of_bytes (hpc.trans hi.symm) (by omega) (hbytes 0 (Nat.zero_le _)) (hbytes 1 hx)⟩
  · obtain ⟨_, hstore, _⟩ := bcdStoresThreeDigits x s
    obtain ⟨t, ht, hhundreds, htens, _, hpc, _⟩ := hstore hfit
    refine ⟨t, _, ht, fetchWord_of_bytes (hpc.trans hi.symm) (by omega) rfl rfl, ?_⟩
    rw [toNat_wordOfBytes, hhundreds, htens]

/-! ### Sprites (R144, R146) -/

/-- Settles O41: eight columns and fifteen rows are fewer than the display wraps at. -/
theorem spritePixelsLandApart : Obligations.SpritePixelsLandApart := fun ox oy r r' c c' hr hr' hc hc' hcol hrow =>
  ⟨wrapCol_inj ox c c' hc hc' hcol, wrapRow_inj oy r r' hrow (by omega) (by omega)⟩

/-- What a second draw reads is as before the first, except the display. -/
theorem effect_drw_keeps_sprite (s : State) (x y : Reg) (n : Fin 16) (hx : x ≠ 15) (hy : y ≠ 15) :
    (effect s (.drw x y n)).reg x = s.reg x ∧ (effect s (.drw x y n)).reg y = s.reg y ∧
      (effect s (.drw x y n)).i = s.i ∧ ∀ a, (effect s (.drw x y n)).byteAt a = s.byteAt a := by
  have hreg (q : Reg) (hq : q ≠ 15) : (effect s (.drw x y n)).reg q = s.reg q :=
    effect_reg_of_not_named s (.drw x y n) q id fun ⟨_, hvf⟩ => hq hvf
  exact ⟨hreg x hx, hreg y hy, rfl, fun _ => rfl⟩

/-- XOR with the same bit twice is no change; outside the sprite's place neither draw does anything. -/
theorem drw_drw_pixel (s : State) (x y : Reg) (n : Fin 16) (hx : x ≠ 15) (hy : y ≠ 15) (col : Fin 64) (row : Fin 32) :
    (effect (effect s (.drw x y n)) (.drw x y n)).pixel col row = s.pixel col row := by
  obtain ⟨hx', hy', hi, hbytes⟩ := effect_drw_keeps_sprite s x y n hx hy
  by_cases hplace : ∃ r < n.val, ∃ c < 8, col = wrapCol (s.reg x).toNat c ∧ row = wrapRow (s.reg y).toNat r
  · obtain ⟨r, hr, c, hc, rfl, rfl⟩ := hplace
    have hsecond := effect_drw_pixel (effect s (.drw x y n)) x y n r hr c hc
    rw [hx', hy', hi, hbytes, effect_drw_pixel s x y n r hr c hc] at hsecond
    rw [hsecond, Bool.xor_assoc, Bool.xor_self, Bool.xor_false]
  · have hout : ∀ r < n.val, ∀ c < 8, ¬ (col = wrapCol (s.reg x).toNat c ∧ row = wrapRow (s.reg y).toNat r) :=
      fun r hr c hc e => hplace ⟨r, hr, c, hc, e⟩
    rw [← effect_drw_pixel_outside s x y n col row hout]
    exact effect_drw_pixel_outside (effect s (.drw x y n)) x y n col row (by rwa [hx', hy'])

/-- The second draw's flag, in terms of the sprite before the first. -/
theorem drw_drw_regVF_eq_one_iff (s : State) (x y : Reg) (n : Fin 16) (hx : x ≠ 15) (hy : y ≠ 15) :
    (effect (effect s (.drw x y n)) (.drw x y n)).reg regVF = 1#8 ↔ ∃ r < n.val, ∃ c < 8,
      spriteBit (s.byteAt (s.i.toNat + r)) c = true ∧
        (effect s (.drw x y n)).pixel (wrapCol (s.reg x).toNat c) (wrapRow (s.reg y).toNat r) = true := by
  obtain ⟨hx', hy', hi, hbytes⟩ := effect_drw_keeps_sprite s x y n hx hy
  simp only [effect_drw_regVF_eq_one_iff (effect s (.drw x y n)), hx', hy', hi, hbytes, and_comm]

/-- On a blank place the pixels after a draw are the sprite's bits. -/
theorem effect_drw_pixel_of_blank (s : State) (x y : Reg) (n : Fin 16) (r : Nat) (hr : r < n.val) (c : Nat) (hc : c < 8)
    (hblank : s.pixel (wrapCol (s.reg x).toNat c) (wrapRow (s.reg y).toNat r) = false) :
    (effect s (.drw x y n)).pixel (wrapCol (s.reg x).toNat c) (wrapRow (s.reg y).toNat r)
      = spriteBit (s.byteAt (s.i.toNat + r)) c := by
  rw [effect_drw_pixel s x y n r hr c hc, hblank, Bool.false_xor]

/-- Settles O42: the second draw passes the same check and XORs the same sprite; on a blank place a set bit meets the
pixel it set itself. -/
theorem drawTwiceRestoresDisplay : Obligations.DrawTwiceRestoresDisplay := by
  intro x y n s hx hy hfit
  have hnofault : faultOf s (.drw x y n) = none := if_neg (by omega)
  have hnofault' : faultOf (effect s (.drw x y n)) (.drw x y n) = none := hnofault
  have hflag := drw_drw_regVF_eq_one_iff s x y n hx hy
  refine ⟨_, _, exec_of_no_fault _ s hnofault, exec_of_no_fault _ _ hnofault', drw_drw_pixel s x y n hx hy, hflag,
    fun hblank => hflag.trans ?_⟩
  refine exists_congr fun r => and_congr_right fun hr => exists_congr fun c => and_congr_right fun hc => ?_
  rw [effect_drw_pixel_of_blank s x y n r hr c hc (hblank r hr c hc), and_self]
  rfl

end Sys2Proof.Machine
end

section
/-! The host's events (spec 60_exceptions.md R172, R190, R191, R193; 70_reset_and_hazards.md R211): everything an event
can do, said once; then the invariant, the halted engine, and the one load between a reset and the first step. -/

namespace Sys2Proof.Machine

/-! ### What an event can do -/

/-- An event that is no reset, no step and no load: a tick, a latch or an acknowledgement. -/
def Event.Minor (e : Event) : Prop := e ≠ .reset ∧ e ≠ .step ∧ ∀ bytes, e ≠ .loadProgram bytes

/-- On a running engine such an event writes timers, latches or `REDRAW`. -/
theorem handle_minor {e : Event} (he : e.Minor) (s : State) : ∃ dt st key redraw,
    handle e s = .next (s.whenRunning { s with dt := dt, st := st, key := key, redraw := redraw }) := by
  obtain ⟨hreset, hstep, hload⟩ := he
  cases e with
  | reset => exact absurd rfl hreset
  | step => exact absurd rfl hstep
  | loadProgram bytes => exact absurd rfl (hload bytes)
  | tickTimers => exact ⟨_, _, s.key, s.redraw, congrArg Host.Outcome.next (tickTimers_eq s)⟩
  | tickDelay => exact ⟨_, s.st, s.key, s.redraw, rfl⟩
  | tickSound => exact ⟨s.dt, _, s.key, s.redraw, rfl⟩
  | setKey k b => exact ⟨s.dt, s.st, _, s.redraw, rfl⟩
  | ackRedraw => exact ⟨s.dt, s.st, s.key, _, rfl⟩

/-- Everything an event that is answered with a next state can have done. -/
theorem handle_cases {e : Event} {s t : State} (h : handle e s = .next t) :
    (e = .reset ∧ t = resetEngine s) ∨
    (e = .step ∧ step s = .next t) ∨
    (∃ bytes, e = .loadProgram bytes ∧ s.launchable = true ∧
      t = { s with mem := Memory.writeBytes s.cfg s.mem s.cfg.loadAddress bytes }.closeLoad) ∨
    (e.Minor ∧ ∃ dt st key redraw, t = { s with dt := dt, st := st, key := key, redraw := redraw }) := by
  by_cases he : e.Minor
  · obtain ⟨dt, st, key, redraw, hs⟩ := handle_minor he s
    cases h.symm.trans hs
    exact .inr (.inr (.inr ⟨he, whenRunning_induction
      (fun u => ∃ dt st key redraw, u = { s with dt := dt, st := st, key := key, redraw := redraw })
      s _ ⟨_, _, _, _, rfl⟩ ⟨_, _, _, _, rfl⟩⟩))
  · cases e with
    | reset => cases h; exact .inl ⟨rfl, rfl⟩
    | step => exact .inr (.inl ⟨rfl, h⟩)
    | loadProgram bytes =>
      obtain ⟨_, hs⟩ | ⟨_, _, hs⟩ | ⟨hl, _, hs⟩ := loadProgram_cases bytes s <;> cases h.symm.trans hs
      exact .inr (.inr (.inl ⟨bytes, rfl, hl, rfl⟩))
    | tickDelay | tickSound | tickTimers | setKey | ackRedraw => exact absurd ⟨nofun, nofun, nofun⟩ he

/-- An event is answered with a next state, or is a refused load. -/
theorem handle_answers (e : Event) (s : State) :
    (∃ t, handle e s = .next t) ∨ ∃ bytes r, e = .loadProgram bytes ∧ handle e s = .refused r := by
  cases e with
  | step => exact .inl (step_answers s)
  | loadProgram bytes =>
    obtain ⟨_, hs⟩ | ⟨_, _, hs⟩ | ⟨_, _, hs⟩ := loadProgram_cases bytes s
    · exact .inr ⟨bytes, _, rfl, hs⟩
    · exact .inr ⟨bytes, _, rfl, hs⟩
    · exact .inl ⟨_, hs⟩
  | reset | tickDelay | tickSound | tickTimers | setKey | ackRedraw => exact .inl ⟨_, rfl⟩

/-! ### The invariant (R24) -/

/-- Settles O54: the base case, for the defaults and for every legal choice. -/
theorem resetSatisfiesInv : Obligations.ResetSatisfiesInv :=
  ⟨resetWith_inv Config.default (by decide), resetWith_inv⟩

theorem handle_cfg {e : Event} {s t : State} (h : handle e s = .next t) : t.cfg = s.cfg := by
  obtain ⟨_, rfl⟩ | ⟨_, hstep⟩ | ⟨_, _, _, rfl⟩ | ⟨_, _, _, _, _, rfl⟩ := handle_cases h
  · rfl
  · exact step_cfg s t hstep
  · rfl
  · rfl

/-- Settles O57: an event that is no refused load is answered, and what it answers keeps the invariant. -/
theorem everyEventKeepsInv : Obligations.EveryEventKeepsInv := by
  intro s e hinv
  obtain ⟨t, ht⟩ | hrefused := handle_answers e s
  · exact .inl ⟨t, ht, handle_keeps_inv e s t hinv ht, handle_cfg ht⟩
  · exact .inr hrefused

/-! ### The halted engine (R172) -/

theorem loadProgram_refused {s : State} (h : s.launchable = false) (bytes : List Byte) :
    handle (.loadProgram bytes) s = .refused .loadNotPermitted := by
  obtain ⟨_, hs⟩ | ⟨hl, _⟩ | ⟨hl, _⟩ := loadProgram_cases bytes s
  · exact hs
  · cases h.symm.trans hl
  · cases h.symm.trans hl

theorem launchable_of_halted {s : State} {f : Fault} (h : s.status = .halted f) : s.launchable = false := by
  simp [State.launchable, h]

/-- Settles O11: a step of a halted engine and a minor event leave it; it may not be loaded; a reset runs it. -/
theorem haltedEngineOnlyResets : Obligations.HaltedEngineOnlyResets := by
  refine fun s f hf => ⟨fun e hreset hload => ?_, loadProgram_refused (launchable_of_halted hf), _, rfl, rfl⟩
  by_cases hstep : e = .step
  · rw [hstep]
    exact step_halted s f hf
  · obtain ⟨_, _, _, _, hs⟩ := handle_minor ⟨hreset, hstep, hload⟩ s
    rw [hs, whenRunning_halted s _ f hf]

/-! ### Loading (R54, R211) -/

/-- A load changes the permission and the bytes from `LOAD_ADDRESS` up. -/
theorem onlyChanges_load (s : State) (bytes : List Byte) :
    OnlyChanges s { s with mem := Memory.writeBytes s.cfg s.mem s.cfg.loadAddress bytes }.closeLoad
      (fun p => p = .loadable ∨ ∃ j < bytes.length, p = .byte (s.cfg.loadAddress + j)) := by
  intro p hp
  obtain ⟨hloadable, hbyte⟩ := not_or.1 hp
  cases p
  case loadable => exact absurd rfl hloadable
  case byte a =>
    refine onlyChanges_writeBytes_advance s s.cfg.loadAddress bytes (.byte a) ?_
    rintro (h | h)
    · cases h
    · exact hbyte h
  all_goals rfl

/-- What a permitted load of an image that fits does. -/
theorem loadProgram_accepted {s : State} {bytes : List Byte} (hl : s.launchable = true)
    (hlen : bytes.length ≤ 4096 - s.cfg.loadAddress) :
    ∃ t, handle (.loadProgram bytes) s = .next t ∧ t.loadable = false ∧
      (∀ j < bytes.length, bytes[j]? = some (t.byteAt (s.cfg.loadAddress + j))) ∧
      OnlyChanges s t (fun p => p = .loadable ∨ ∃ j < bytes.length, p = .byte (s.cfg.loadAddress + j)) := by
  obtain ⟨hl', _⟩ | ⟨_, hlong, _⟩ | ⟨_, _, hs⟩ := loadProgram_cases bytes s
  · cases hl.symm.trans hl'
  · omega
  · refine ⟨_, hs, rfl, fun j hj => ?_, onlyChanges_load s bytes⟩
    rw [byteAt_load s bytes j hj, List.getD_eq_getElem _ _ hj, List.getElem?_eq_getElem hj]

/-- Settles O48: on a running engine a load is permitted iff `loadable` says so, and then only its length counts. -/
theorem loadCopiesImageOrRefuses : Obligations.LoadCopiesImageOrRefuses := by
  refine fun s bytes hr => ⟨fun hl => loadProgram_accepted ((launchable_iff s).2 ⟨hl, hr⟩), fun hl hlong => ?_,
    fun hl => loadProgram_refused (by rw [State.launchable, hl, Bool.false_and]) bytes⟩
  obtain ⟨hl', _⟩ | ⟨_, _, hs⟩ | ⟨_, hlen, _⟩ := loadProgram_cases bytes s
  · cases hl'.symm.trans ((launchable_iff s).2 ⟨hl, hr⟩)
  · exact hs
  · omega

/-- After a step no load is permitted, whether it ran or found the engine halted. -/
theorem launchable_after_step {s t : State} (h : step s = .next t) : t.launchable = false := by
  cases hr : s.status with
  | running => rw [State.launchable, step_loadable s t hr h, Bool.false_and]
  | halted f =>
    cases h.symm.trans (step_halted s f hr)
    exact launchable_of_halted hr

/-- Without a reset a load stays permitted exactly through the events that are neither a step nor a load. -/
theorem handle_launchable {e : Event} {s t : State} (he : e ≠ .reset) (h : handle e s = .next t) :
    t.launchable = true ↔ s.launchable = true ∧ e ≠ .step ∧ ∀ image, e ≠ .loadProgram image := by
  obtain ⟨hreset, _⟩ | ⟨rfl, hstep⟩ | ⟨bytes, rfl, _, rfl⟩ | ⟨⟨_, hminor⟩, _, _, _, _, rfl⟩ := handle_cases h
  · exact absurd hreset he
  · simp [launchable_after_step hstep]
  · simp [State.launchable]
  · exact (and_iff_left hminor).symm

theorem handleAll_cons {e : Event} {l : List Event} {s t : State} (h : handleAll (e :: l) s = .next t) :
    ∃ u, handle e s = .next u ∧ handleAll l u = .next t := by
  rw [handleAll] at h
  cases he : handle e s with
  | next u => rw [he] at h; exact ⟨u, rfl, h⟩
  | fault f => rw [he] at h; cases h
  | refused r => rw [he] at h; cases h

theorem handleAll_cfg {events : List Event} {s t : State} (h : handleAll events s = .next t) : t.cfg = s.cfg := by
  induction events generalizing s with
  | nil => cases h; rfl
  | cons e rest ih =>
    obtain ⟨u, hu, hrest⟩ := handleAll_cons h
    exact (ih hrest).trans (handle_cfg hu)

/-- Over a list of events without a reset the permission is used up by a step or a load in it, and by nothing else. -/
theorem handleAll_launchable {events : List Event} {s t : State} (hreset : .reset ∉ events)
    (h : handleAll events s = .next t) :
    t.launchable = true ↔ s.launchable = true ∧ .step ∉ events ∧ ∀ image, .loadProgram image ∉ events := by
  induction events generalizing s with
  | nil => cases h; simp
  | cons e rest ih =>
    obtain ⟨u, hu, hrest⟩ := handleAll_cons h
    obtain ⟨he, hreset'⟩ := not_or.1 (mt List.mem_cons.2 hreset)
    rw [ih hreset' hrest, handle_launchable (Ne.symm he) hu]
    simp only [List.mem_cons, not_or, forall_and, ne_comm (a := e)]
    tauto

/-- Settles O49: a reset engine may be loaded, and the events decide whether it still may. -/
theorem oneLoadBetweenResetAndFirstStep : Obligations.OneLoadBetweenResetAndFirstStep := by
  intro s t events bytes hreset h
  have hrest : handleAll events (resetEngine s) = .next t := h
  have hcfg : t.cfg = s.cfg := handleAll_cfg (s := resetEngine s) hrest
  have hl := handleAll_launchable hreset hrest
  refine ⟨fun hused => loadProgram_refused (Bool.eq_false_iff.2 fun ht => ?_) bytes, fun hstep hload hlen => ?_⟩
  · obtain ⟨_, hstep, hload⟩ := hl.1 ht
    obtain hmem | ⟨image, hmem⟩ := hused
    · exact hstep hmem
    · exact hload image hmem
  · obtain ⟨u, hu, _, hbytes, _⟩ := loadProgram_accepted (hl.2 ⟨rfl, hstep, hload⟩) (hcfg ▸ hlen)
    exact ⟨u, hu, hcfg ▸ hbytes⟩

/-- Settles O50: a minor event leaves the memory, and a load writes its image and nothing else. -/
theorem hostWritesMemoryOnlyByLoad : Obligations.HostWritesMemoryOnlyByLoad := by
  intro s t e a h hne
  obtain ⟨rfl, _⟩ | ⟨rfl, _⟩ | ⟨bytes, rfl, hl, rfl⟩ | ⟨_, _, _, _, _, rfl⟩ := handle_cases h
  · exact .inl rfl
  · exact .inr (.inl rfl)
  · obtain ⟨hloadable, _⟩ := (launchable_iff s).1 hl
    obtain ⟨hlo, hhi⟩ := in_range_of_byteAt_writeBytes_ne s s.cfg.loadAddress bytes a hne
    exact .inr (.inr ⟨bytes, rfl, hloadable, hlo, hhi⟩)
  · exact absurd rfl hne

/-! ### Latches and REDRAW (R190, R191) -/

/-- Setting one latch changes that latch. -/
theorem onlyChanges_setKey (s : State) (k : Fin 16) (b : Bool) :
    OnlyChanges s { s with key := s.key.set k b } (fun p => p = .key k) := by
  intro p hp
  cases p
  case key j =>
    have hne : k.val ≠ j.val := fun e => hp (congrArg Part.key (Fin.ext e.symm))
    exact Vector.getElem_set_ne k.isLt j.isLt hne
  all_goals rfl

theorem onlyChanges_setRedraw (s : State) (b : Bool) :
    OnlyChanges s { s with redraw := b } (fun p => p = .redraw) := by
  intro p hp
  cases p
  case redraw => exact absurd rfl hp
  all_goals rfl

/-- Settles O52: on a running engine each event is its one write. -/
theorem hostWritesLatchAndAcknowledges : Obligations.HostWritesLatchAndAcknowledges := fun s k b hr =>
  ⟨⟨_, congrArg Host.Outcome.next (whenRunning_running s _ hr), Vector.getElem_set_self k.isLt,
      onlyChanges_setKey s k b⟩,
    ⟨_, congrArg Host.Outcome.next (whenRunning_running s _ hr), rfl, onlyChanges_setRedraw s false⟩⟩

end Sys2Proof.Machine
end
